-- ==== Sys2Proof/Word.lean ====
section
/-! DEFINITION. The block's word types.  A byte is 8 bits, bit 7 the most significant (`00_scope.md`
section 4); a telemetry field is a 32-bit pattern (`43_views.md` R103); a register address has 7 bits
(`20_memory.md` R25). -/

namespace Sys2Proof

/-- A byte, 0..255: the element type of `RXBUF` and of every frame (R13). -/
abbrev Byte := BitVec 8

/-- A 32-bit telemetry field, kept as the raw pattern (R103): the block never converts it. -/
abbrev Field32 := BitVec 32

/-- A remote register address, 0..127 (R25). -/
abbrev RegAddr := BitVec 7

end Sys2Proof
end

