-- ==== Sys2Proof/Config.lean ====
section
/-! DEFINITION. The hardwired parameters of `00_scope.md` R2, under the spec's own names.  Nothing in
the block can change them.  The block has no implementation-chosen value and no free value: the spec
leaves no result open (`93_implementation_defined.md`, end of Part 1). -/

namespace Sys2Proof.Config

/-- Generator polynomial, low 8 bits (R2, R60). -/
def CRC_POLY : Byte := 0x07#8
/-- Initial accumulator value (R2, R62). -/
def CRC_INIT : Byte := 0x00#8
/-- Value XORed into the result: none (R2, R60). -/
def CRC_XOROUT : Byte := 0x00#8
/-- Iterations per byte: the width of the accumulator (R2, R61). -/
abbrev CRC_WIDTH : Nat := 8

/-- Length of a command frame and of a command-response frame (R2). -/
@[simp] abbrev CMD_LEN : Nat := 4
/-- Length of a telemetry frame (R2, R44). -/
@[simp] abbrev TLM_LEN : Nat := 37
/-- First byte of a telemetry frame (R2). -/
def MAGIC0 : Byte := 0xAA#8
/-- Second byte of a telemetry frame (R2). -/
def MAGIC1 : Byte := 0x55#8
/-- Bit 7 of a header: read request outbound (R2, R42). -/
def READ_FLAG : Byte := 0x80#8
/-- The register address bits of a header (R2, R42). -/
def REG_MASK : Byte := 0x7F#8
/-- Size of the remote register address space (R2). -/
abbrev REG_COUNT : Nat := 128

/-- Baud rate of the external transport: informational, no rule reads it (R2, R143). -/
abbrev BAUD : Nat := 115200
/-- Read timeout of the external transport in ms: informational, no rule reads it (R2, R143). -/
abbrev READ_TIMEOUT : Nat := 100
/-- Display throttle of the external presentation layer in ms: informational (R2, R142). -/
abbrev DISPLAY_PERIOD : Nat := 100

end Sys2Proof.Config
end

