-- ==== Sys2Proof/Machine/Crc.lean ====
section
/-! DEFINITION. The CRC unit's functions, `40_crc8.md` R60 to R62: pure, total, no state (R64). -/

namespace Sys2Proof.Machine

open Sys2Proof.Config

/-- One of the eight iterations of R61: test bit 7 before the shift, shift left, XOR the polynomial in
if the bit was set. -/
def crcShift (a : Byte) : Byte :=
  if a.msb then (a <<< 1) ^^^ CRC_POLY else a <<< 1

/-- `CRC8.STEP` (R61): absorb one byte. -/
def crc8Step (acc b : Byte) : Byte :=
  crcShift^[CRC_WIDTH] (acc ^^^ b)

/-- `crc8(s)` (R62): from `CRC_INIT`, absorb the bytes in order; no final XOR. -/
def crc8 (s : List Byte) : Byte :=
  s.foldl crc8Step CRC_INIT ^^^ CRC_XOROUT

end Sys2Proof.Machine
end

