-- ==== Sys2Proof/Machine/Operands.lean ====
section
/-! DEFINITION. Operand assembly and frame layout: the header byte (R42, R71), the split of a value and
of a read count (R48, R49, R72, R73), little-endian fields (R26), the sign correction (R106), and the
byte layouts of the 4-byte and 37-byte frames (R41, R44). -/

namespace Sys2Proof.Machine

open Sys2Proof.Config

/-- The header byte (R71): the flag, or-ed with the masked low bits of `register`.  `BitVec.ofInt`
is the two's-complement reading of `&` on a mathematical integer (`00_scope.md` section 4). -/
def headerByte (register : Int) (isRead : Bool) : Byte :=
  (if isRead then READ_FLAG else 0x00#8) ||| (BitVec.ofInt 8 register &&& REG_MASK)

/-- The low data byte, `value & 0xFF` (R72, R73). -/
def dataLow (value : Int) : Byte :=
  BitVec.ofInt 8 value

/-- The high data byte: `(value >> 8) & 0xFF` for a write (R72), `0x00` for a read (R73). -/
def dataHigh (isRead : Bool) (value : Int) : Byte :=
  if isRead then 0x00#8 else BitVec.ofInt 8 (value >>> (8 : Nat))

/-- The leading byte `0xxxxxxx` (R46): bit 7 clear, `x` below it. -/
def rspLead (x : RegAddr) : Byte :=
  x.setWidth 8

/-- The leading byte `1xxxxxxx` (R46), also the header of a read request (R42). -/
def unkLead (x : RegAddr) : Byte :=
  READ_FLAG ||| x.setWidth 8

/-- The low seven bits of a leading byte: a header's register address (R42, R105). -/
def leadBits (b : Byte) : RegAddr :=
  (b &&& REG_MASK).setWidth 7

/-- The byte at index `i` of a frame.  Read only where the frame's length has been tested, so that the
value outside the frame is never used (R30, R107). -/
def byteAt (f : List Byte) (i : Nat) : Byte :=
  f.getD i 0x00#8

/-- A 32-bit field from its four bytes in frame order, the lower index less significant (R26). -/
def leJoin (b0 b1 b2 b3 : Byte) : Field32 :=
  b3 ++ b2 ++ b1 ++ b0

/-- The four bytes of a 32-bit field in frame order (R26). -/
def leSplit (v : Field32) : List Byte :=
  [v.extractLsb' 0 8, v.extractLsb' 8 8, v.extractLsb' 16 8, v.extractLsb' 24 8]

/-- `u32(k)` of R100: the little-endian 32-bit field at frame indices `k .. k+3`. -/
def u32At (f : List Byte) (k : Nat) : Field32 :=
  leJoin (byteAt f k) (byteAt f (k + 1)) (byteAt f (k + 2)) (byteAt f (k + 3))

/-- `dlo | (dhi << 8)` as a number 0..65535 (R48, R106). -/
def leWord (dlo dhi : Byte) : Nat :=
  dlo.toNat + 256 * dhi.toNat

/-- `sext16(u)` (R48, R106): values from 32768 up become negative by subtracting 65536. -/
def sext16 (u : Nat) : Int :=
  if u < 32768 then (u : Int) else (u : Int) - 65536

/-- The bytes of a 4-byte frame in wire order, `[hdr, dlo, dhi, crc]` (R41, R27). -/
def frame4 (hdr dlo dhi crc : Byte) : List Byte :=
  [hdr, dlo, dhi, crc]

/-- The bytes of a telemetry frame in wire order (R44): magic, two reserved bytes, the timestamp, seven
float patterns, the CRC. -/
def frame37 (v w : Byte) (t a b d e f g s : Field32) (c : Byte) : List Byte :=
  [MAGIC0, MAGIC1, v, w] ++ leSplit t ++ leSplit a ++ leSplit b ++ leSplit d ++ leSplit e
    ++ leSplit f ++ leSplit g ++ leSplit s ++ [c]

end Sys2Proof.Machine
end

