-- ==== Sys2Proof/Machine/Flags.lean ====
section
/-! DEFINITION. The block has no flags, condition codes or status bits (R16).  What stands in their
place are conditions computed afresh from `RXBUF` and stored nowhere: the frame check (R45), the
lead-byte tests (R46), and for each of the ten iteration cases the condition that selects it, each
written from its own rule (R82 to R91). -/

namespace Sys2Proof.Machine

open Sys2Proof.Config

/-- The validity test of a frame (R45): the last byte is the CRC of all bytes before it. -/
def frameValid (f : List Byte) : Bool :=
  f.getLast? == some (crc8 f.dropLast)

/-- The candidate of `n + 1` bytes at the head of `B` passes its check:
`crc8(MemRead(0, n)) == B[n]` (R86, R89). -/
def headCrcOk (B : List Byte) (n : Nat) : Bool :=
  B[n]? == some (crc8 (B.take n))

/-- Bit 7 of a byte is clear (R46, test 2). -/
def bit7Clear (b : Byte) : Bool :=
  b &&& READ_FLAG == 0x00#8

/-- `P.EMPTY` is selected (R82). -/
def selPEmpty (B : List Byte) : Bool :=
  B.length == 0

/-- `T.WAIT1` is selected (R83). -/
def selTWait1 (B : List Byte) : Bool :=
  B[0]? == some MAGIC0 && B.length == 1

/-- `T.FALSE` with follower `y` is selected (R84). -/
def selTFalse (y : Byte) (B : List Byte) : Bool :=
  B[0]? == some MAGIC0 && B[1]? == some y && y != MAGIC1

/-- `RXBUF` begins with the telemetry magic (R85 to R87). -/
def magicHead (B : List Byte) : Bool :=
  B[0]? == some MAGIC0 && B[1]? == some MAGIC1

/-- `T.WAIT` is selected (R85). -/
def selTWait (B : List Byte) : Bool :=
  magicHead B && decide (2 ≤ B.length) && decide (B.length < TLM_LEN)

/-- `T.EMIT` is selected (R86). -/
def selTEmit (B : List Byte) : Bool :=
  magicHead B && decide (TLM_LEN ≤ B.length) && headCrcOk B 36

/-- `T.BAD` is selected (R87). -/
def selTBad (B : List Byte) : Bool :=
  magicHead B && decide (TLM_LEN ≤ B.length) && !headCrcOk B 36

/-- `R.WAIT` is selected on the leading byte `0xxxxxxx` (R88). -/
def selRWait (x : RegAddr) (B : List Byte) : Bool :=
  B[0]? == some (rspLead x) && decide (1 ≤ B.length) && decide (B.length < CMD_LEN)

/-- `R.EMIT` is selected on the leading byte `0xxxxxxx` (R89). -/
def selREmit (x : RegAddr) (B : List Byte) : Bool :=
  B[0]? == some (rspLead x) && decide (CMD_LEN ≤ B.length) && headCrcOk B 3

/-- `R.BAD` is selected on the leading byte `0xxxxxxx` (R90). -/
def selRBad (x : RegAddr) (B : List Byte) : Bool :=
  B[0]? == some (rspLead x) && decide (CMD_LEN ≤ B.length) && !headCrcOk B 3

/-- `U.DROP` is selected on the leading byte `1xxxxxxx`, not `0xAA` (R91). -/
def selUDrop (x : RegAddr) (B : List Byte) : Bool :=
  B[0]? == some (unkLead x) && unkLead x != MAGIC0

end Sys2Proof.Machine
end

