-- ==== Sys2Proof/Syntax.lean ====
section
/-! DEFINITION. The instructions: one constructor for each of the 27 rows of `opcode_table.json`, in
the table's order.  The table has four spaces (operation, frame, lead-byte, iteration-case); what
`00_scope.md` section 5 calls an instruction is an operation or an iteration case, what it calls an
opcode is also the leading byte of `RXBUF` and bit 7 of a header.  A constructor's arguments are the
operands of R52 or the pattern letters of its row. -/

namespace Sys2Proof

/-- An instruction: a row of the opcode table with its operands. -/
inductive Instr where
  -- the operation space (R52)
  /-- `CRC8`: the checksum of a byte sequence (R62). -/
  | crc8 (bytes : List Byte)
  /-- `ENCODE`: build a 4-byte command frame; operands are mathematical integers (R70, R75, D3). -/
  | encode (register : Int) (isRead : Bool) (value : Int)
  /-- `ENC.WR`: the form of `ENCODE` with `isRead = false` (R72). -/
  | encWr (register value : Int)
  /-- `ENC.RD`: the form of `ENCODE` with `isRead = true` (R73). -/
  | encRd (register value : Int)
  /-- `FEED`: append bytes and extract every frame (R80). -/
  | feed (newBytes : List Byte)
  /-- `RESET`: empty `RXBUF` (R130). -/
  | reset
  /-- `TLM.DECODE`: the telemetry view (R100). -/
  | tlmDecode (frame : List Byte)
  /-- `RSP.DECODE`: the command-response view (R104). -/
  | rspDecode (frame : List Byte)
  /-- `OP.RESERVED6`: operation code 110, reserved (R52). -/
  | opReserved6
  /-- `OP.RESERVED7`: operation code 111, reserved (R52). -/
  | opReserved7
  -- the frame space (R41, R44)
  /-- `CMD.WR`: an outbound write request `0rrrrrrr l h c` (R41, R43). -/
  | cmdWr (r : RegAddr) (l h c : Byte)
  /-- `CMD.RD`: an outbound read request `1rrrrrrr n 00 c` (R41, R43). -/
  | cmdRd (r : RegAddr) (n c : Byte)
  /-- `RSP`: an inbound command-response `0rrrrrrr l h c` (R41, R43). -/
  | rsp (r : RegAddr) (l h c : Byte)
  /-- `TLM`: an inbound telemetry frame `AA 55 v w t a b d e f g s c` (R44); the eight 32-bit fields
  are the values assembled little-endian (R26). -/
  | tlm (v w : Byte) (t a b d e f g s : Field32) (c : Byte)
  -- the lead-byte space (R46)
  /-- `LEAD.TLM`: leading byte `0xAA`, the telemetry branch. -/
  | leadTlm
  /-- `LEAD.RSP`: leading byte `0xxxxxxx`, the command-response branch. -/
  | leadRsp (x : RegAddr)
  /-- `LEAD.UNK`: leading byte `1xxxxxxx` other than `0xAA`, unrecognised. -/
  | leadUnk (x : RegAddr)
  -- the iteration-case space (R82 to R91)
  /-- `P.EMPTY` (R82). -/
  | pEmpty
  /-- `T.WAIT1` (R83). -/
  | tWait1
  /-- `T.FALSE` with the follower byte `y` (R84). -/
  | tFalse (y : Byte)
  /-- `T.WAIT` (R85). -/
  | tWait
  /-- `T.EMIT` (R86). -/
  | tEmit
  /-- `T.BAD` (R87). -/
  | tBad
  /-- `R.WAIT` on a leading byte `0xxxxxxx` (R88). -/
  | rWait (x : RegAddr)
  /-- `R.EMIT` on a leading byte `0xxxxxxx` (R89). -/
  | rEmit (x : RegAddr)
  /-- `R.BAD` on a leading byte `0xxxxxxx` (R90). -/
  | rBad (x : RegAddr)
  /-- `U.DROP` on a leading byte `1xxxxxxx` other than `0xAA` (R91). -/
  | uDrop (x : RegAddr)
  deriving DecidableEq, Repr

end Sys2Proof
end

