-- ==== Sys2Proof/WellFormed.lean ====
section
/-! DEFINITION. Which instructions are well formed.  Most operands take every value (R75: `ENCODE`
accepts all integers; R62, R80, R107: every byte sequence).  The checks are on the frames the block
itself sends, which always end in their CRC (R41, R45, R77), and on the pattern letters that a row
restricts (R46, R84, R91). -/

namespace Sys2Proof

open Sys2Proof.Config Sys2Proof.Machine

/-- The check of an instruction's operands. -/
def Instr.wf : Instr → Bool
  | .cmdWr r l h c => c == Machine.crc8 [rspLead r, l, h]
  | .cmdRd r n c => c == Machine.crc8 [unkLead r, n, 0x00#8]
  | .leadUnk x => unkLead x != MAGIC0
  | .tFalse y => y != MAGIC1
  | .uDrop x => unkLead x != MAGIC0
  | .crc8 _ => true
  | .encode _ _ _ => true
  | .encWr _ _ => true
  | .encRd _ _ => true
  | .feed _ => true
  | .reset => true
  | .tlmDecode _ => true
  | .rspDecode _ => true
  | .opReserved6 => true
  | .opReserved7 => true
  | .rsp _ _ _ _ => true
  | .tlm _ _ _ _ _ _ _ _ _ _ _ => true
  | .leadTlm => true
  | .leadRsp _ => true
  | .pEmpty => true
  | .tWait1 => true
  | .tWait => true
  | .tEmit => true
  | .tBad => true
  | .rWait _ => true
  | .rEmit _ => true
  | .rBad _ => true

end Sys2Proof
end

