-- ==== Sys2Proof/Decode.lean ====
section
/-! DEFINITION. The decoder, total on every transaction and rejecting by name, and after it the
encoder.  The spec gives an operation a 3-bit code only; the operands reach it as arguments
(R14, R52, D2).  A transaction is therefore a pattern of one of the table's four spaces, with the
operand values beside an operation code (assumption 2). -/

namespace Sys2Proof

open Sys2Proof.Config Sys2Proof.Machine

/-- The operand values presented with an operation code (R52); an operation reads those it has. -/
structure Operands where
  bytes    : List Byte
  register : Int
  isRead   : Bool
  value    : Int
  deriving DecidableEq, Repr

/-- Operand values of an operation that reads none of them. -/
def Operands.zero : Operands := { bytes := [], register := 0, isRead := false, value := 0 }

/-- What an instruction is read from: a pattern of one of the spaces of the opcode table. -/
inductive Transaction where
  /-- A 3-bit operation code with its operands (format `OP3`). -/
  | select (op : BitVec 3) (a : Operands)
  /-- A 4-character pattern, the operation code and then `isRead` (format `OP3+isRead`). -/
  | form (pattern : BitVec 4) (a : Operands)
  /-- A frame on the outbound wire, bytes in wire order (format `FRAME4`, outbound). -/
  | outbound (frame : List Byte)
  /-- Bytes arriving on the inbound wire, in wire order (formats `FRAME4` and `FRAME37`, inbound, and any
  other bytes). -/
  | inbound (frame : List Byte)
  /-- The byte at the parse position, read as a lead byte (format `LEAD8`). -/
  | lead (b : Byte)
  /-- The bytes from the parse position on, read as an iteration case (format `ITER`). -/
  | iteration (buffered : List Byte)
  deriving DecidableEq, Repr

/-- Why the decoder reads no instruction.  Only outbound bytes can be rejected: the wire they stand on
carries nothing but what `ENCODE` produced (R25, R40). -/
inductive Reject where
  /-- Outbound bytes whose length is not 4: the ENC unit produces only 4-byte frames (R40, R70). -/
  | outboundLength
  /-- An outbound read request whose high data byte is not `0x00`: it cannot occur (R50). -/
  | readHighByte
  deriving DecidableEq, Repr

/-- The instruction of a 3-bit operation code (R52); all eight codes are rows. -/
def decodeOp (op : BitVec 3) (a : Operands) : Instr :=
  if op = 0b000#3 then .crc8 a.bytes
  else if op = 0b001#3 then .encode a.register a.isRead a.value
  else if op = 0b010#3 then .feed a.bytes
  else if op = 0b011#3 then .reset
  else if op = 0b100#3 then .tlmDecode a.bytes
  else if op = 0b101#3 then .rspDecode a.bytes
  else if op = 0b110#3 then .opReserved6
  else .opReserved7

/-- A 4-character pattern: the operation code and then `isRead`, which is no part of the code (R52).  With
code `001` it names a form of `ENCODE` (R72, R73); the other operations have no such operand. -/
def decodeForm (p : BitVec 4) (a : Operands) : Instr :=
  if p = 0b0010#4 then .encWr a.register a.value
  else if p = 0b0011#4 then .encRd a.register a.value
  else decodeOp (p.extractLsb' 1 3) a

/-- An outbound frame by bit 7 of its header (R40, R42): a write or a read request. -/
def decodeOutbound : List Byte → Except Reject Instr
  | [hdr, dlo, dhi, crc] =>
    if bit7Clear hdr then .ok (.cmdWr (leadBits hdr) dlo dhi crc)
    else if dhi = 0x00#8 then .ok (.cmdRd (leadBits hdr) dlo crc)
    else .error .readHighByte
  | _ => .error .outboundLength

/-- The telemetry frame with these 37 bytes, field by field (R44). -/
def decodeTlm (f : List Byte) : Instr :=
  .tlm (byteAt f 2) (byteAt f 3) (u32At f 4) (u32At f 8) (u32At f 12) (u32At f 16) (u32At f 20)
    (u32At f 24) (u32At f 28) (u32At f 32) (byteAt f 36)

/-- Inbound bytes: one command-response or telemetry frame by length and lead (R40), and otherwise the
`FEED` of the bytes as they are, since inbound bytes of any value and number have a defined treatment
(R25, R50, R80, D16, D19). -/
def decodeInbound (f : List Byte) : Instr :=
  if f.length = CMD_LEN ∧ bit7Clear (byteAt f 0) then
    .rsp (leadBits (byteAt f 0)) (byteAt f 1) (byteAt f 2) (byteAt f 3)
  else if f.length = TLM_LEN ∧ magicHead f then decodeTlm f
  else .feed f

/-- The lead-byte map (R46), tests in its order. -/
def decodeLead (b : Byte) : Instr :=
  if b = MAGIC0 then .leadTlm
  else if bit7Clear b then .leadRsp (leadBits b)
  else .leadUnk (leadBits b)

/-- The iteration case of a buffer: the tests of `Decide` in their order (R81, R115), each outcome
named by its case (R82 to R91). -/
def decodeHead (B : List Byte) : Instr :=
  match B with
  | [] => .pEmpty
  | b0 :: rest =>
    if b0 = MAGIC0 then
      match rest with
      | [] => .tWait1
      | b1 :: _ =>
        if b1 ≠ MAGIC1 then .tFalse b1
        else if B.length < TLM_LEN then .tWait
        else if headCrcOk B 36 then .tEmit
        else .tBad
    else if bit7Clear b0 then
      if B.length < CMD_LEN then .rWait (leadBits b0)
      else if headCrcOk B 3 then .rEmit (leadBits b0)
      else .rBad (leadBits b0)
    else .uDrop (leadBits b0)

/-- The instruction a transaction holds, or the reason it holds none. -/
def decode : Transaction → Except Reject Instr
  | .select op a => .ok (decodeOp op a)
  | .form p a => .ok (decodeForm p a)
  | .outbound f => decodeOutbound f
  | .inbound f => .ok (decodeInbound f)
  | .lead b => .ok (decodeLead b)
  | .iteration B => .ok (decodeHead B)

/-! The encoder, from the same tables.  An iteration case is encoded as the shortest buffer that
selects it: its row's pattern, then zero bytes, then a CRC byte that makes its condition true. -/

/-- 36 bytes that start a telemetry candidate. -/
def blankTlm : List Byte := [MAGIC0, MAGIC1] ++ List.replicate 34 0x00#8

/-- The transaction that holds an instruction. -/
def encode : Instr → Transaction
  | .crc8 s => .select 0b000 { Operands.zero with bytes := s }
  | .encode r rd v => .select 0b001 { bytes := [], register := r, isRead := rd, value := v }
  | .encWr r v => .form 0b0010 { Operands.zero with register := r, value := v }
  | .encRd r v => .form 0b0011 { Operands.zero with register := r, value := v }
  | .feed s => .select 0b010 { Operands.zero with bytes := s }
  | .reset => .select 0b011 Operands.zero
  | .tlmDecode f => .select 0b100 { Operands.zero with bytes := f }
  | .rspDecode f => .select 0b101 { Operands.zero with bytes := f }
  | .opReserved6 => .select 0b110 Operands.zero
  | .opReserved7 => .select 0b111 Operands.zero
  | .cmdWr r l h c => .outbound (frame4 (rspLead r) l h c)
  | .cmdRd r n c => .outbound (frame4 (unkLead r) n 0x00#8 c)
  | .rsp r l h c => .inbound (frame4 (rspLead r) l h c)
  | .tlm v w t a b d e f g s c => .inbound (frame37 v w t a b d e f g s c)
  | .leadTlm => .lead MAGIC0
  | .leadRsp x => .lead (rspLead x)
  | .leadUnk x => .lead (unkLead x)
  | .pEmpty => .iteration []
  | .tWait1 => .iteration [MAGIC0]
  | .tFalse y => .iteration [MAGIC0, y]
  | .tWait => .iteration [MAGIC0, MAGIC1]
  | .tEmit => .iteration (blankTlm ++ [crc8 blankTlm])
  | .tBad => .iteration (blankTlm ++ [~~~crc8 blankTlm])
  | .rWait x => .iteration [rspLead x]
  | .rEmit x => .iteration (frame4 (rspLead x) 0x00#8 0x00#8 (crc8 [rspLead x, 0x00#8, 0x00#8]))
  | .rBad x => .iteration (frame4 (rspLead x) 0x00#8 0x00#8 (~~~crc8 [rspLead x, 0x00#8, 0x00#8]))
  | .uDrop x => .iteration [unkLead x]

/-! Words as the opcode table numbers them. -/

/-- The `n` bytes of a pattern, leftmost byte first: the table writes a frame in wire order with the
leftmost bit the most significant (R41). -/
def wordBytes : Nat → Nat → List Byte
  | 0, _ => []
  | n + 1, w => BitVec.ofNat 8 (w >>> (8 * n)) :: wordBytes n w

/-- The transaction that a word of `nbits` bits stands for.  The table's spaces overlap at one width;
assumption 3 says which is read: 8 bits below 8 an operation code and else a lead byte, 16 bits an
iteration case, 32 bits an inbound frame if its top bit is clear and else an outbound one. -/
def tableTransaction (nbits w : Nat) : Transaction :=
  if nbits = 3 then .select (BitVec.ofNat 3 w) Operands.zero
  else if nbits = 4 then .form (BitVec.ofNat 4 w) Operands.zero
  else if nbits = 8 then
    if w < 8 then .select (BitVec.ofNat 3 w) Operands.zero else .lead (BitVec.ofNat 8 w)
  else if nbits = 16 then .iteration (wordBytes 2 w)
  else if nbits = 32 then
    if w.testBit 31 then .outbound (wordBytes 4 w) else .inbound (wordBytes 4 w)
  else .inbound (wordBytes (nbits / 8) w)

/-- The instruction the decoder reads from a table word. -/
def decodeTableWord (nbits w : Nat) : Option Instr :=
  (decode (tableTransaction nbits w)).toOption

end Sys2Proof
end

