-- ==== Sys2Proof/Machine/State.lean ====
section
/-! DEFINITION. The machine's state, the values its operations return, and the reasons a step can stop.
The block has one piece of architectural state, `RXBUF` (`10_state.md` section 1, R10 to R18).  The
other two fields of `State` are the surroundings' side of the interface: the operations they have yet
to submit and the value the last one returned (assumption 1). -/

namespace Sys2Proof.Machine

/-- The tag of an emitted frame (R80). -/
inductive Kind where
  /-- A 37-byte telemetry frame. -/
  | TLM
  /-- A 4-byte command-response frame. -/
  | RSP
  deriving DecidableEq, Repr

/-- A raw frame as `FEED` emits it: its tag and a copy of its bytes, CRC included (R86, R89). -/
structure TaggedFrame where
  kind  : Kind
  bytes : List Byte
  deriving DecidableEq, Repr

/-- Three axes of a telemetry quantity, raw 32-bit patterns (R103). -/
structure Axes where
  x : Field32
  y : Field32
  z : Field32
  deriving DecidableEq, Repr

/-- The record of `TLM.DECODE` (R100, R101). -/
structure TelemetryFrame where
  timestamp : Field32
  accel     : Axes
  gyro      : Axes
  speed     : Field32
  deriving DecidableEq, Repr

/-- The record of `RSP.DECODE` (R104): a register address and a signed 16-bit value. -/
structure CommandResponseFrame where
  register : RegAddr
  value    : Int
  deriving DecidableEq, Repr

/-- The block's only surfaced error (R116). -/
inductive DecodeError where
  /-- A view was given a frame of the wrong length (R107). -/
  | wrongLength
  deriving DecidableEq, Repr

/-- What an operation returns (the Result column of R52). -/
inductive Result where
  /-- `CRC8`: one byte. -/
  | byte (b : Byte)
  /-- `ENCODE` and an outbound frame: the bytes handed to the transport. -/
  | sent (frame : List Byte)
  /-- `FEED`: the tagged raw frames in emission order (D6). -/
  | frames (fs : List TaggedFrame)
  /-- `TLM.DECODE` on 37 bytes. -/
  | telemetry (t : TelemetryFrame)
  /-- `RSP.DECODE` on 4 bytes. -/
  | response (r : CommandResponseFrame)
  /-- A view on a frame of another length: an explicit error value, not a trap (R107, D9). -/
  | decodeError (e : DecodeError)
  deriving DecidableEq, Repr

/-- Faults: there are none.  No operation of the block faults (R50, R62, R75, R112); the one surfaced
error is a returned value (R107, D9).  An empty type says so: no step can answer a fault. -/
inductive Fault where
  deriving DecidableEq, Repr

/-- Why a step has no meaning. -/
inductive Refusal where
  /-- An instruction of the table without a meaning yet.  Raised by an arm of `exec` only.  Safe. -/
  | notModelled (mnemonic : String)
  /-- The decoder reads no instruction from outbound bytes that `ENCODE` never produces (R40, R50: such a
  frame cannot occur); every other transaction decodes.  Raised by `step`.  Safe. -/
  | undecodable (r : Reject)
  /-- Operation codes 110 and 111, which a model refuses (R52).  Raised by `execOpReserved6` and
  `execOpReserved7`.  Safe. -/
  | reservedOperation
  /-- An iteration case or lead byte that the buffer does not select: exactly one case applies to a
  buffer (R81), the others have no effect to model.  Raised by the iteration cases and lead bytes
  when their condition does not hold.  Safe. -/
  | caseNotSelected
  /-- An outbound frame whose last byte is not its CRC: not a frame (R45), never produced (R77).
  Raised by `execCmdWr` and `execCmdRd`.  Safe. -/
  | notAFrame
  deriving DecidableEq, Repr

/-- The state: `RXBUF`, and beside it the two sides of the interface. -/
structure State where
  /-- `RXBUF`, the receive buffer, a first-in first-out queue; index 0 is the oldest byte and the parse
  position (R10, R13, R15).  The block's only state. -/
  rxbuf  : List Byte
  /-- Interface, not block state: the transactions the surroundings have yet to submit, in order
  (R33, D12). -/
  port   : List Transaction
  /-- Interface, not block state: what the last instruction returned; nothing reads it (R18). -/
  result : Option Result
  deriving DecidableEq, Repr

/-- The block after reset: `RXBUF` empty (R132, D7), no transaction waiting, nothing returned. -/
def State.reset : State := { rxbuf := [], port := [], result := none }

end Sys2Proof.Machine
end

