-- ==== Sys2Proof/Machine/Ops.lean ====
section
/-! DEFINITION. The shared operations: the primitives of `00_scope.md` section 4 on `RXBUF`, the parser's
decision (R81) and its loop (R80), the resync action that stands for taking an exception (R113), the
explicit decode error (R107), and the return of a result. -/

namespace Sys2Proof.Machine

open Sys2Proof.Config

/-- How a step ends. -/
abbrev StepOutcome := Host.Outcome State Fault Refusal

/-! ### Primitives on `RXBUF` -/

/-- `MemRead(i, n)`: `n` bytes from index `i`, not removed; only inside the buffer (R30). -/
def memRead (B : List Byte) (i n : Nat) : Option (List Byte) :=
  if i + n ≤ B.length then some ((B.drop i).take n) else none

/-- The buffer as (address, byte) cells: the `RXBUF` index space of R25. -/
def cellsFrom : Nat → List Byte → List Host.Cell
  | _, [] => []
  | i, b :: B => (i, b) :: cellsFrom (i + 1) B

/-- Every cell of the `RXBUF` index space, index 0 first (R25). -/
def State.cells (s : State) : List Host.Cell := cellsFrom 0 s.rxbuf

/-- The canonical form of a cell list: addresses strictly rising.  An unlisted index does not exist
(R30), so no entry can equal what an unlisted index reads as. -/
abbrev Memory.wf (m : List Host.Cell) : Prop := m.Pairwise (fun p q => p.1 < q.1)

/-- `Append(s)` (R80). -/
def State.append (newBytes : List Byte) (s : State) : State :=
  { s with rxbuf := s.rxbuf ++ newBytes }

/-- `DropHead(n)`: remove the first `n` bytes (R10). -/
def State.dropHead (n : Nat) (s : State) : State :=
  { s with rxbuf := s.rxbuf.drop n }

/-- The clear of `RESET` (R130). -/
def State.clear (s : State) : State :=
  { s with rxbuf := [] }

/-- Leave a value as the instruction's result. -/
def State.returning (r : Result) (s : State) : State :=
  { s with result := some r }

/-! ### The parser -/

/-- The four actions of `Decide` (R81). -/
inductive Action where
  /-- `Stop`: return to the caller, `RXBUF` as it is (R93). -/
  | stop
  /-- `DropOne`: the resync action (R113). -/
  | dropOne
  /-- `EmitRsp`: emit the leading 4 bytes (R89). -/
  | emitRsp
  /-- `EmitTlm`: emit the leading 37 bytes (R86). -/
  | emitTlm
  deriving DecidableEq, Repr

/-- `Decide` once the leading byte is `0xAA` (R81): length, magic, length, CRC. -/
def telemetryBranch (B : List Byte) : Action :=
  if B.length < 2 then .stop
  else if B[1]? ≠ some MAGIC1 then .dropOne
  else if B.length < TLM_LEN then .stop
  else if headCrcOk B 36 then .emitTlm
  else .dropOne

/-- `Decide` once bit 7 of the leading byte is clear (R81): length, CRC. -/
def responseBranch (B : List Byte) : Action :=
  if B.length < CMD_LEN then .stop
  else if headCrcOk B 3 then .emitRsp
  else .dropOne

/-- `Decide(B)` (R81), tests in the order of R115. -/
def decideAction (B : List Byte) : Action :=
  match B with
  | [] => .stop
  | b0 :: _ =>
    if b0 = MAGIC0 then telemetryBranch B
    else if bit7Clear b0 then responseBranch B
    else .dropOne

/-- How many bytes an action removes from the head (R15): 0, 1, 4 or 37. -/
def Action.consumed : Action → Nat
  | .stop => 0
  | .dropOne => 1
  | .emitRsp => CMD_LEN
  | .emitTlm => TLM_LEN

/-- What an action emits from a buffer (R86, R89): a copy of the candidate, tagged. -/
def Action.emitted (B : List Byte) : Action → List TaggedFrame
  | .stop => []
  | .dropOne => []
  | .emitRsp => [{ kind := .RSP, bytes := B.take CMD_LEN }]
  | .emitTlm => [{ kind := .TLM, bytes := B.take TLM_LEN }]

/-- The loop of R80 with a bound on its iterations: decide, act, repeat until `Stop`.  Answers the frames
in emission order and the buffer left. -/
def drain : Nat → List Byte → List TaggedFrame × List Byte
  | 0, B => ([], B)
  | n + 1, B =>
    match decideAction B with
    | .stop => ([], B)
    | act =>
      let (fs, R) := drain n (B.drop act.consumed)
      (act.emitted B ++ fs, R)

/-- The whole loop on a buffer: each iteration stops or removes a byte, so `len + 1` decisions are
enough (R94). -/
def parse (B : List Byte) : List TaggedFrame × List Byte :=
  drain (B.length + 1) B

/-! ### Shared endings of the meanings -/

/-- Perform one iteration's action on the state and return what it emits.  `dropOne` is the whole
treatment of a framing error: no state saved, no mode changed, no vector consulted (R113, R114). -/
def State.perform (act : Action) (s : State) : State :=
  (s.dropHead act.consumed).returning (.frames (act.emitted s.rxbuf))

/-- Run an iteration only where the buffer selects it; exactly one case applies (R81). -/
def whenSelected (selected : Bool) (act : Action) (s : State) : StepOutcome :=
  if selected then .next (s.perform act) else .refused .caseNotSelected

/-- The whole `FEED` (R80): append, loop, return the frames; one indivisible transition (R32). -/
def feedBytes (newBytes : List Byte) (s : State) : State :=
  let (fs, R) := parse (s.append newBytes).rxbuf
  { s with rxbuf := R, result := some (.frames fs) }

/-- `raise DecodeError(WrongLength)` (R107, R116): the error is the result, nothing else changes, the
next operation proceeds normally. -/
def State.raiseWrongLength (s : State) : State :=
  s.returning (.decodeError .wrongLength)

/-- Hand a frame to the transport (R3, R70); only a frame that ends in its CRC is one (R45). -/
def sendFrame (f : List Byte) (s : State) : StepOutcome :=
  if frameValid f then .next (s.returning (.sent f)) else .refused .notAFrame

end Sys2Proof.Machine
end

