-- ==== Sys2Proof/Machine/CrcUnit.lean ====
section
/-! DEFINITION. The CRC unit's operation (`40_crc8.md`). -/

namespace Sys2Proof.Machine

/-- `CRC8` (R62): return the checksum; no state read or written, never fails (R64). -/
def execCrc8 (bytes : List Byte) (s : State) : StepOutcome :=
  .next (s.returning (.byte (crc8 bytes)))

end Sys2Proof.Machine
end

