-- ==== Sys2Proof/Machine/DecUnit.lean ====
section
/-! DEFINITION. The DEC unit (`42_decoder.md`, R130): `FEED`, `RESET`, the two inbound frames, the three
lead bytes and the ten iteration cases. -/

namespace Sys2Proof.Machine

open Sys2Proof.Config

/-- `FEED` (R80): never fails, whatever the bytes (R112). -/
def execFeed (newBytes : List Byte) (s : State) : StepOutcome :=
  .next (feedBytes newBytes s)

/-- `RESET` (R130): `RXBUF` empty, nothing emitted, no result. -/
def execReset (s : State) : StepOutcome :=
  .next { s.clear with result := none }

/-- `RSP` (R41): these 4 bytes arrive from the transport and are fed to the DEC unit, which emits them
where their CRC matches and resynchronises where it does not (R27, R89, R90). -/
def execRsp (r : RegAddr) (l h c : Byte) (s : State) : StepOutcome :=
  .next (feedBytes (frame4 (rspLead r) l h c) s)

/-- `TLM` (R44): these 37 bytes arrive from the transport and are fed to the DEC unit (R27, R86, R87). -/
def execTlm (v w : Byte) (t a b d e f g q : Field32) (c : Byte) (s : State) : StepOutcome :=
  .next (feedBytes (frame37 v w t a b d e f g q c) s)

/-- `LEAD.TLM` (R46, test 1): one iteration in the telemetry branch. -/
def execLeadTlm (s : State) : StepOutcome :=
  whenSelected (s.rxbuf[0]? == some MAGIC0) (telemetryBranch s.rxbuf) s

/-- `LEAD.RSP` (R46, test 2): one iteration in the command-response branch. -/
def execLeadRsp (x : RegAddr) (s : State) : StepOutcome :=
  whenSelected (s.rxbuf[0]? == some (rspLead x)) (responseBranch s.rxbuf) s

/-- `LEAD.UNK` (R46, test 3): unrecognised, drop 1. -/
def execLeadUnk (x : RegAddr) (s : State) : StepOutcome :=
  whenSelected (s.rxbuf[0]? == some (unkLead x) && unkLead x != MAGIC0) .dropOne s

/-- `P.EMPTY` (R82): stop. -/
def execPEmpty (s : State) : StepOutcome :=
  whenSelected (selPEmpty s.rxbuf) .stop s

/-- `T.WAIT1` (R83): stop, keep the `0xAA`. -/
def execTWait1 (s : State) : StepOutcome :=
  whenSelected (selTWait1 s.rxbuf) .stop s

/-- `T.FALSE` (R84): drop the false magic byte, keep its follower. -/
def execTFalse (y : Byte) (s : State) : StepOutcome :=
  whenSelected (selTFalse y s.rxbuf) .dropOne s

/-- `T.WAIT` (R85): stop, drop nothing. -/
def execTWait (s : State) : StepOutcome :=
  whenSelected (selTWait s.rxbuf) .stop s

/-- `T.EMIT` (R86): emit the leading 37 bytes and remove them. -/
def execTEmit (s : State) : StepOutcome :=
  whenSelected (selTEmit s.rxbuf) .emitTlm s

/-- `T.BAD` (R87): drop only the first byte of the candidate. -/
def execTBad (s : State) : StepOutcome :=
  whenSelected (selTBad s.rxbuf) .dropOne s

/-- `R.WAIT` (R88): stop. -/
def execRWait (x : RegAddr) (s : State) : StepOutcome :=
  whenSelected (selRWait x s.rxbuf) .stop s

/-- `R.EMIT` (R89): emit the leading 4 bytes and remove them. -/
def execREmit (x : RegAddr) (s : State) : StepOutcome :=
  whenSelected (selREmit x s.rxbuf) .emitRsp s

/-- `R.BAD` (R90): drop only the leading byte. -/
def execRBad (x : RegAddr) (s : State) : StepOutcome :=
  whenSelected (selRBad x s.rxbuf) .dropOne s

/-- `U.DROP` (R91): drop the unrecognised byte. -/
def execUDrop (x : RegAddr) (s : State) : StepOutcome :=
  whenSelected (selUDrop x s.rxbuf) .dropOne s

end Sys2Proof.Machine
end

