-- ==== Sys2Proof/Machine/EncUnit.lean ====
section
/-! DEFINITION. The ENC unit (`41_encoder.md`) and the two outbound frames it produces (R41 to R43). -/

namespace Sys2Proof.Machine

open Sys2Proof.Config

/-- The frame `ENCODE` builds (R70): header, low and high data byte, and the CRC over the three (R74). -/
def encodeFrame (register : Int) (isRead : Bool) (value : Int) : List Byte :=
  let hdr := headerByte register isRead
  let dlo := dataLow value
  let dhi := dataHigh isRead value
  frame4 hdr dlo dhi (crc8 [hdr, dlo, dhi])

/-- `ENCODE` (R70): total on all integers, never rejects, touches no state (R75, R76). -/
def execEncode (register : Int) (isRead : Bool) (value : Int) (s : State) : StepOutcome :=
  .next (s.returning (.sent (encodeFrame register isRead value)))

/-- `ENC.WR` (R72): the form with `isRead = false`. -/
def execEncWr (register value : Int) (s : State) : StepOutcome :=
  .next (s.returning (.sent (encodeFrame register false value)))

/-- `ENC.RD` (R73): the form with `isRead = true`; the low byte of `value` is a read count. -/
def execEncRd (register value : Int) (s : State) : StepOutcome :=
  .next (s.returning (.sent (encodeFrame register true value)))

/-- `CMD.WR` (R41, R43): the write request with these fields goes out on the wire, as `ENC.WR`
produces it; bytes that do not end in their CRC are not a frame (R45). -/
def execCmdWr (r : RegAddr) (l h c : Byte) (s : State) : StepOutcome :=
  sendFrame (frame4 (rspLead r) l h c) s

/-- `CMD.RD` (R41, R43): the read request with these fields goes out on the wire, as `ENC.RD`
produces it, with `dhi = 0x00` always. -/
def execCmdRd (r : RegAddr) (n c : Byte) (s : State) : StepOutcome :=
  sendFrame (frame4 (unkLead r) n 0x00#8 c) s

end Sys2Proof.Machine
end

