-- ==== Sys2Proof/Machine/Reserved.lean ====
section
/-! DEFINITION. The two reserved operation codes, which a model refuses (R52). -/

namespace Sys2Proof.Machine

/-- `OP.RESERVED6` (R52): refused. -/
def execOpReserved6 (_s : State) : StepOutcome :=
  .refused .reservedOperation

/-- `OP.RESERVED7` (R52): refused. -/
def execOpReserved7 (_s : State) : StepOutcome :=
  .refused .reservedOperation

end Sys2Proof.Machine
end

