-- ==== Sys2Proof/Machine/Views.lean ====
section
/-! DEFINITION. The views (`43_views.md`): pure field extractions, with no check of magic, reserved bytes
or CRC (R102, D22). -/

namespace Sys2Proof.Machine

open Sys2Proof.Config

/-- The record of a 37-byte frame (R100): fields by position; indices 0 to 3 and 36 contribute
nothing (R101). -/
def telemetryOf (f : List Byte) : TelemetryFrame :=
  { timestamp := u32At f 4
    accel := { x := u32At f 8, y := u32At f 12, z := u32At f 16 }
    gyro := { x := u32At f 20, y := u32At f 24, z := u32At f 28 }
    speed := u32At f 32 }

/-- The record of a 4-byte frame (R104): the header's low seven bits (R105) and the sign-corrected
little-endian value (R106). -/
def responseOf (f : List Byte) : CommandResponseFrame :=
  { register := leadBits (byteAt f 0)
    value := sext16 (leWord (byteAt f 1) (byteAt f 2)) }

/-- `TLM.DECODE` (R100): the record, or the explicit error on another length (R107). -/
def execTlmDecode (f : List Byte) (s : State) : StepOutcome :=
  if f.length ≠ TLM_LEN then .next s.raiseWrongLength
  else .next (s.returning (.telemetry (telemetryOf f)))

/-- `RSP.DECODE` (R104): the record, or the explicit error on another length (R107). -/
def execRspDecode (f : List Byte) (s : State) : StepOutcome :=
  if f.length ≠ CMD_LEN then .next s.raiseWrongLength
  else .next (s.returning (.response (responseOf f)))

end Sys2Proof.Machine
end

