-- ==== Sys2Proof/Machine/Dispatch.lean ====
section
/-! DEFINITION. One arm per constructor of Instr, each one direct call of its meaning. -/

namespace Sys2Proof.Machine

def exec (i : Instr) (s : State) : Host.Outcome State Fault Refusal :=
  match i with
  -- the operation space
  | .crc8 bytes => Sys2Proof.Machine.execCrc8 bytes s
  | .encode register isRead value => Sys2Proof.Machine.execEncode register isRead value s
  | .encWr register value => Sys2Proof.Machine.execEncWr register value s
  | .encRd register value => Sys2Proof.Machine.execEncRd register value s
  | .feed newBytes => Sys2Proof.Machine.execFeed newBytes s
  | .reset => Sys2Proof.Machine.execReset s
  | .tlmDecode frame => Sys2Proof.Machine.execTlmDecode frame s
  | .rspDecode frame => Sys2Proof.Machine.execRspDecode frame s
  | .opReserved6 => Sys2Proof.Machine.execOpReserved6 s
  | .opReserved7 => Sys2Proof.Machine.execOpReserved7 s
  -- the frame space
  | .cmdWr r l h c => Sys2Proof.Machine.execCmdWr r l h c s
  | .cmdRd r n c => Sys2Proof.Machine.execCmdRd r n c s
  | .rsp r l h c => Sys2Proof.Machine.execRsp r l h c s
  | .tlm v w t a b d e f g q c => Sys2Proof.Machine.execTlm v w t a b d e f g q c s
  -- the lead-byte space
  | .leadTlm => Sys2Proof.Machine.execLeadTlm s
  | .leadRsp x => Sys2Proof.Machine.execLeadRsp x s
  | .leadUnk x => Sys2Proof.Machine.execLeadUnk x s
  -- the iteration-case space
  | .pEmpty => Sys2Proof.Machine.execPEmpty s
  | .tWait1 => Sys2Proof.Machine.execTWait1 s
  | .tFalse y => Sys2Proof.Machine.execTFalse y s
  | .tWait => Sys2Proof.Machine.execTWait s
  | .tEmit => Sys2Proof.Machine.execTEmit s
  | .tBad => Sys2Proof.Machine.execTBad s
  | .rWait x => Sys2Proof.Machine.execRWait x s
  | .rEmit x => Sys2Proof.Machine.execREmit x s
  | .rBad x => Sys2Proof.Machine.execRBad x s
  | .uDrop x => Sys2Proof.Machine.execUDrop x s

end Sys2Proof.Machine
end

