-- ==== Sys2Proof/Machine/Step.lean ====
section
/-! DEFINITION. One step: fetch a transaction, decode it, run it.  The transaction is the oldest one the
surroundings have submitted; where none waits, the bytes at the parse position are read as an
iteration case (R15: the program counter's analogue is index 0 of `RXBUF`), which on a quiescent
buffer is a stop (R19). -/

namespace Sys2Proof.Machine

/-- The transaction the next step reads. -/
def State.fetch (s : State) : Transaction :=
  s.port.headD (.iteration s.rxbuf)

/-- The state once the transaction is taken: the oldest one leaves the port. -/
def State.taken (s : State) : State :=
  { s with port := s.port.tail }

/-- One step of the machine. -/
def step (s : State) : Host.Outcome State Fault Refusal :=
  match decode s.fetch with
  | .ok i => exec i s.taken
  | .error r => .refused (.undecodable r)

/-- Put a transaction where the next step fetches. -/
def State.withTransaction (s : State) (t : Transaction) : State :=
  { s with port := t :: s.port }

/-- The state in which the next step runs a table word: its transaction stands first at the port, and
for a lead byte or an iteration case its bytes stand at the parse position, where such an instruction
is read from. -/
def State.withFetchWord (s : State) (nbits w : Nat) : State :=
  match tableTransaction nbits w with
  | .lead b => { s with port := .lead b :: s.port, rxbuf := [b] }
  | .iteration B => { s with port := .iteration B :: s.port, rxbuf := B }
  | t => s.withTransaction t

/-- The state in which the next steps run these instructions in order: a program of
`95_test_vectors.md` Part 3, handed over by the surroundings. -/
def State.withProgram (s : State) (is : List Instr) : State :=
  { s with port := is.map encode ++ s.port }

end Sys2Proof.Machine
end

