-- ==== Sys2Proof/Laws/Bits.lean ====
section
/-! SUPPORT. Laws of the operand and layout functions: lead bytes, little-endian fields, the layouts of
the two frames. -/

namespace Sys2Proof.Machine

open Sys2Proof.Config

@[simp] theorem leadBits_rspLead (x : RegAddr) : leadBits (rspLead x) = x := by
  revert x; decide

@[simp] theorem leadBits_unkLead (x : RegAddr) : leadBits (unkLead x) = x := by
  revert x; decide

@[simp] theorem bit7Clear_rspLead (x : RegAddr) : bit7Clear (rspLead x) = true := by
  revert x; decide

@[simp] theorem bit7Clear_unkLead (x : RegAddr) : bit7Clear (unkLead x) = false := by
  revert x; decide

/-- A leading byte with bit 7 clear is never the telemetry magic: no ambiguity (R46). -/
@[simp] theorem rspLead_ne_magic0 (x : RegAddr) : rspLead x ≠ MAGIC0 := by
  revert x; decide

theorem rspLead_leadBits (b : Byte) (h : bit7Clear b = true) : rspLead (leadBits b) = b := by
  revert b; decide

theorem unkLead_leadBits (b : Byte) (h : bit7Clear b = false) : unkLead (leadBits b) = b := by
  revert b; decide

theorem bit7Clear_iff (b : Byte) : bit7Clear b = true ↔ b.toNat < 128 := by
  revert b; decide

theorem toNat_leJoin (b0 b1 b2 b3 : Byte) :
    (leJoin b0 b1 b2 b3).toNat =
      b0.toNat + 256 * b1.toNat + 65536 * b2.toNat + 16777216 * b3.toNat := by
  have h0 := b0.isLt
  have h1 := b1.isLt
  have h2 := b2.isLt
  simp only [leJoin, BitVec.toNat_append]
  rw [← Nat.shiftLeft_add_eq_or_of_lt h0, ← Nat.shiftLeft_add_eq_or_of_lt h1,
    ← Nat.shiftLeft_add_eq_or_of_lt h2]
  simp only [Nat.shiftLeft_eq]
  omega

/-- Joining the four bytes of a field gives the field back. -/
theorem leJoin_split (v : Field32) :
    leJoin (v.extractLsb' 0 8) (v.extractLsb' 8 8) (v.extractLsb' 16 8) (v.extractLsb' 24 8) = v := by
  apply BitVec.eq_of_toNat_eq
  have hv := v.isLt
  simp only [toNat_leJoin, BitVec.extractLsb'_toNat, Nat.shiftRight_eq_div_pow]
  omega

/-- Splitting a field joined from four bytes gives the bytes back. -/
theorem leSplit_leJoin (a b c d : Byte) : leSplit (leJoin a b c d) = [a, b, c, d] := by
  have ha := a.isLt
  have hb := b.isLt
  have hc := c.isLt
  have hd := d.isLt
  simp only [leSplit, List.cons.injEq, and_true]
  refine ⟨?_, ?_, ?_, ?_⟩ <;> apply BitVec.eq_of_toNat_eq <;>
    simp only [BitVec.extractLsb'_toNat, toNat_leJoin, Nat.shiftRight_eq_div_pow] <;> omega

@[simp] theorem length_frame4 (hdr dlo dhi crc : Byte) : (frame4 hdr dlo dhi crc).length = 4 := rfl

@[simp] theorem length_frame37 (v w : Byte) (t a b d e f g s : Field32) (c : Byte) :
    (frame37 v w t a b d e f g s c).length = 37 := rfl

theorem magicHead_frame37 (v w : Byte) (t a b d e f g s : Field32) (c : Byte) :
    magicHead (frame37 v w t a b d e f g s c) = true := rfl

/-- The fields of a telemetry frame stand where R44 puts them. -/
theorem frame37_fields (v w : Byte) (t a b d e f g s : Field32) (c : Byte) :
    let fr := frame37 v w t a b d e f g s c
    byteAt fr 2 = v ∧ byteAt fr 3 = w ∧ u32At fr 4 = t ∧ u32At fr 8 = a ∧ u32At fr 12 = b ∧
      u32At fr 16 = d ∧ u32At fr 20 = e ∧ u32At fr 24 = f ∧ u32At fr 28 = g ∧ u32At fr 32 = s ∧
      byteAt fr 36 = c :=
  ⟨rfl, rfl, leJoin_split t, leJoin_split a, leJoin_split b, leJoin_split d, leJoin_split e,
    leJoin_split f, leJoin_split g, leJoin_split s, rfl⟩

end Sys2Proof.Machine
end

