-- ==== Sys2Proof/Laws/Crc.lean ====
section
/-! SUPPORT. Laws of the CRC functions. -/

namespace Sys2Proof.Machine

open Sys2Proof.Config

theorem crc8_eq_foldl (s : List Byte) : crc8 s = s.foldl crc8Step CRC_INIT := by
  simp [crc8, CRC_XOROUT]

/-- Empty input (R63). -/
@[simp] theorem crc8_nil : crc8 [] = 0x00 := rfl

/-- The loop of R62, last byte. -/
theorem crc8_concat (s : List Byte) (b : Byte) : crc8 (s ++ [b]) = crc8Step (crc8 s) b := by
  simp [crc8_eq_foldl]

/-- `crc8_step` depends on its operands only through their XOR. -/
theorem crc8Step_xor (acc b : Byte) : crc8Step acc b = crc8Step 0x00 (acc ^^^ b) := by
  simp [crc8Step]

theorem xor_left_comm (x y z : Byte) : x ^^^ (y ^^^ z) = y ^^^ (x ^^^ z) := by
  rw [← BitVec.xor_assoc, BitVec.xor_comm x, BitVec.xor_assoc]

theorem crcShift_xor (a b : Byte) : crcShift (a ^^^ b) = crcShift a ^^^ crcShift b := by
  cases ha : a.msb <;> cases hb : b.msb <;>
    simp [crcShift, BitVec.msb_xor, ha, hb, BitVec.shiftLeft_xor_distrib, BitVec.xor_assoc,
      BitVec.xor_comm, xor_left_comm]

theorem crcShift_iterate_xor (n : Nat) (a b : Byte) :
    crcShift^[n] (a ^^^ b) = crcShift^[n] a ^^^ crcShift^[n] b := by
  induction n generalizing a b with
  | zero => rfl
  | succ n ih => simp [Function.iterate_succ, crcShift_xor, ih]

/-- `headCrcOk` says that the candidate at the head is a valid frame. -/
theorem headCrcOk_iff (B : List Byte) (n : Nat) (h : n < B.length) :
    headCrcOk B n = true ↔ frameValid (B.take (n + 1)) = true := by
  have hl : (B.take (n + 1)).length = n + 1 := by simp; omega
  have h1 : (B.take (n + 1)).getLast? = B[n]? := by
    rw [List.getLast?_eq_getElem?, hl]; simp
  have h2 : (B.take (n + 1)).dropLast = B.take n := by
    rw [List.dropLast_eq_take, hl, List.take_take]; simp
  simp [headCrcOk, frameValid, h1, h2]

/-- The check of a buffer that is `P` and one byte more. -/
theorem headCrcOk_concat (P : List Byte) (c : Byte) :
    headCrcOk (P ++ [c]) P.length = (c == crc8 P) := by
  simp [headCrcOk]

theorem not_ne_self (b : Byte) : (~~~b == b) = false := by
  revert b; decide

end Sys2Proof.Machine
end

