-- ==== Sys2Proof/Laws/PerInstr.lean ====
section
/-! SUPPORT. Statements about every instruction, one lemma per constructor. -/

namespace Sys2Proof.Laws.RoundTrip

/-- The decoder gives a well-formed instruction back from its encoding. -/
def Statement (i : Instr) : Prop := i.wf = true → decode (encode i) = .ok i

end Sys2Proof.Laws.RoundTrip

open Sys2Proof Sys2Proof.Config Sys2Proof.Machine

/-! ### The operation space -/

theorem Sys2Proof.Laws.RoundTrip.crc8 (bytes : List Byte) :
    Sys2Proof.Laws.RoundTrip.Statement (.crc8 bytes) := fun _ => rfl
theorem Sys2Proof.Laws.RoundTrip.encode (register : Int) (isRead : Bool) (value : Int) :
    Sys2Proof.Laws.RoundTrip.Statement (.encode register isRead value) := fun _ => rfl
theorem Sys2Proof.Laws.RoundTrip.encWr (register value : Int) :
    Sys2Proof.Laws.RoundTrip.Statement (.encWr register value) := fun _ => rfl
theorem Sys2Proof.Laws.RoundTrip.encRd (register value : Int) :
    Sys2Proof.Laws.RoundTrip.Statement (.encRd register value) := fun _ => rfl
theorem Sys2Proof.Laws.RoundTrip.feed (newBytes : List Byte) :
    Sys2Proof.Laws.RoundTrip.Statement (.feed newBytes) := fun _ => rfl
theorem Sys2Proof.Laws.RoundTrip.reset :
    Sys2Proof.Laws.RoundTrip.Statement .reset := fun _ => rfl
theorem Sys2Proof.Laws.RoundTrip.tlmDecode (frame : List Byte) :
    Sys2Proof.Laws.RoundTrip.Statement (.tlmDecode frame) := fun _ => rfl
theorem Sys2Proof.Laws.RoundTrip.rspDecode (frame : List Byte) :
    Sys2Proof.Laws.RoundTrip.Statement (.rspDecode frame) := fun _ => rfl
theorem Sys2Proof.Laws.RoundTrip.opReserved6 :
    Sys2Proof.Laws.RoundTrip.Statement .opReserved6 := fun _ => rfl
theorem Sys2Proof.Laws.RoundTrip.opReserved7 :
    Sys2Proof.Laws.RoundTrip.Statement .opReserved7 := fun _ => rfl

/-! ### The frame space -/

theorem Sys2Proof.Laws.RoundTrip.cmdWr (r : RegAddr) (l h c : Byte) :
    Sys2Proof.Laws.RoundTrip.Statement (.cmdWr r l h c) := fun _ => by
  simp [decode, Sys2Proof.encode, frame4, decodeOutbound]
theorem Sys2Proof.Laws.RoundTrip.cmdRd (r : RegAddr) (n c : Byte) :
    Sys2Proof.Laws.RoundTrip.Statement (.cmdRd r n c) := fun _ => by
  simp [decode, Sys2Proof.encode, frame4, decodeOutbound]
theorem Sys2Proof.Laws.RoundTrip.rsp (r : RegAddr) (l h c : Byte) :
    Sys2Proof.Laws.RoundTrip.Statement (.rsp r l h c) := fun _ => by
  simp [decode, Sys2Proof.encode, frame4, decodeInbound, byteAt]
theorem Sys2Proof.Laws.RoundTrip.tlm (v w : Byte) (t a b d e f g s : Field32) (c : Byte) :
    Sys2Proof.Laws.RoundTrip.Statement (.tlm v w t a b d e f g s c) := fun _ => by
  obtain ⟨h1, h2, h3, h4, h5, h6, h7, h8, h9, h10, h11⟩ := frame37_fields v w t a b d e f g s c
  simp [decode, Sys2Proof.encode, decodeInbound, magicHead_frame37, decodeTlm, h1, h2, h3, h4, h5,
    h6, h7, h8, h9, h10, h11]

/-! ### The lead-byte space -/

theorem Sys2Proof.Laws.RoundTrip.leadTlm :
    Sys2Proof.Laws.RoundTrip.Statement .leadTlm := fun _ => rfl
theorem Sys2Proof.Laws.RoundTrip.leadRsp (x : RegAddr) :
    Sys2Proof.Laws.RoundTrip.Statement (.leadRsp x) := fun _ => by
  simp [decode, Sys2Proof.encode, decodeLead]
theorem Sys2Proof.Laws.RoundTrip.leadUnk (x : RegAddr) :
    Sys2Proof.Laws.RoundTrip.Statement (.leadUnk x) := fun hx => by
  have hx : unkLead x ≠ MAGIC0 := by simpa [Instr.wf] using hx
  simp [decode, Sys2Proof.encode, decodeLead, hx]

/-! ### The iteration-case space -/

theorem Sys2Proof.Laws.RoundTrip.pEmpty :
    Sys2Proof.Laws.RoundTrip.Statement .pEmpty := fun _ => rfl
theorem Sys2Proof.Laws.RoundTrip.tWait1 :
    Sys2Proof.Laws.RoundTrip.Statement .tWait1 := fun _ => rfl
theorem Sys2Proof.Laws.RoundTrip.tFalse (y : Byte) :
    Sys2Proof.Laws.RoundTrip.Statement (.tFalse y) := fun hy => by
  have hy : y ≠ MAGIC1 := by simpa [Instr.wf] using hy
  simp [decode, Sys2Proof.encode, decodeHead, hy]
theorem Sys2Proof.Laws.RoundTrip.tWait :
    Sys2Proof.Laws.RoundTrip.Statement .tWait := fun _ => rfl
theorem Sys2Proof.Laws.RoundTrip.tEmit :
    Sys2Proof.Laws.RoundTrip.Statement .tEmit := fun _ => by
  have h := headCrcOk_concat blankTlm (Machine.crc8 blankTlm)
  rw [beq_self_eq_true] at h
  simpa [decode, Sys2Proof.encode, decodeHead, blankTlm] using h
theorem Sys2Proof.Laws.RoundTrip.tBad :
    Sys2Proof.Laws.RoundTrip.Statement .tBad := fun _ => by
  have h := headCrcOk_concat blankTlm (~~~Machine.crc8 blankTlm)
  rw [not_ne_self] at h
  simpa [decode, Sys2Proof.encode, decodeHead, blankTlm] using h
theorem Sys2Proof.Laws.RoundTrip.rWait (x : RegAddr) :
    Sys2Proof.Laws.RoundTrip.Statement (.rWait x) := fun _ => by
  simp [decode, Sys2Proof.encode, decodeHead]
theorem Sys2Proof.Laws.RoundTrip.rEmit (x : RegAddr) :
    Sys2Proof.Laws.RoundTrip.Statement (.rEmit x) := fun _ => by
  simp [decode, Sys2Proof.encode, decodeHead, frame4, headCrcOk]
theorem Sys2Proof.Laws.RoundTrip.rBad (x : RegAddr) :
    Sys2Proof.Laws.RoundTrip.Statement (.rBad x) := fun _ => by
  have h := headCrcOk_concat [rspLead x, 0x00, 0x00] (~~~Machine.crc8 [rspLead x, 0x00, 0x00])
  rw [not_ne_self] at h
  simpa [decode, Sys2Proof.encode, decodeHead, frame4] using h
theorem Sys2Proof.Laws.RoundTrip.uDrop (x : RegAddr) :
    Sys2Proof.Laws.RoundTrip.Statement (.uDrop x) := fun hx => by
  have hx : unkLead x ≠ MAGIC0 := by simpa [Instr.wf] using hx
  simp [decode, Sys2Proof.encode, decodeHead, hx]
end

