-- ==== Sys2Proof/Machine/Events.lean ====
section
/-! DEFINITION. The taxonomy of errors (`60_exceptions.md` R110, R111) and which instruction meets which
event.  The labels are the spec's own (D8).  No event is stored: the block keeps no cause, count or
address (R111, R121), so nothing here is read by a step. -/

namespace Sys2Proof.Machine

/-- The four classes of R110. -/
inductive ErrorClass where
  /-- (a) transient framing error, handled inside `FEED`, never surfaced (R112). -/
  | framing
  /-- (b) contract violation, the only class a caller sees (R116). -/
  | contract
  /-- (c) range violation, masked and no error at all (R117). -/
  | range
  /-- (d) transport error, outside the block (R118). -/
  | transport
  deriving DecidableEq, Repr

/-- The events of R111. -/
inductive Event where
  | feShort | feMagic | feCrcTlm | feCrcRsp | feLead | wrongLength | erRange | transportError
  deriving DecidableEq, Repr

/-- The class column of R111. -/
def Event.errorClass : Event → ErrorClass
  | .feShort => .framing
  | .feMagic => .framing
  | .feCrcTlm => .framing
  | .feCrcRsp => .framing
  | .feLead => .framing
  | .wrongLength => .contract
  | .erRange => .range
  | .transportError => .transport

/-- The action column of R111 for the events of class (a): `Stop`, or drop one byte and retry (R113). -/
def Event.action : Event → Option Action
  | .feShort => some .stop
  | .feMagic => some .dropOne
  | .feCrcTlm => some .dropOne
  | .feCrcRsp => some .dropOne
  | .feLead => some .dropOne
  | .wrongLength => none
  | .erRange => none
  | .transportError => none

/-- The range conditions of `ER_RANGE` (R111): a register outside 0..127, or a value outside the 16-bit
range of a write or the 8-bit range of a read count. -/
def outOfRange (register : Int) (isRead : Bool) (value : Int) : Bool :=
  decide (register < 0 ∨ 127 < register) ||
    (if isRead then decide (value < 0 ∨ 255 < value)
     else decide (value < -32768 ∨ 32767 < value))

/-- The event an instruction meets when it runs (R111), if it meets one; an iteration case and its event
go together by the rule of the case. -/
def eventOf : Instr → Option Event
  | .crc8 _ => none
  | .encode r rd v => if outOfRange r rd v then some .erRange else none
  | .encWr r v => if outOfRange r false v then some .erRange else none
  | .encRd r v => if outOfRange r true v then some .erRange else none
  | .feed _ => none
  | .reset => none
  | .tlmDecode f => if f.length ≠ Config.TLM_LEN then some .wrongLength else none
  | .rspDecode f => if f.length ≠ Config.CMD_LEN then some .wrongLength else none
  | .opReserved6 => none
  | .opReserved7 => none
  | .cmdWr _ _ _ _ => none
  | .cmdRd _ _ _ => none
  | .rsp _ _ _ _ => none
  | .tlm _ _ _ _ _ _ _ _ _ _ _ => none
  | .leadTlm => none
  | .leadRsp _ => none
  | .leadUnk _ => some .feLead
  | .pEmpty => none
  | .tWait1 => some .feShort
  | .tFalse _ => some .feMagic
  | .tWait => some .feShort
  | .tEmit => none
  | .tBad => some .feCrcTlm
  | .rWait _ => some .feShort
  | .rEmit _ => none
  | .rBad _ => some .feCrcRsp
  | .uDrop _ => some .feLead

/-- The action of an iteration case by its rule (R82 to R91); none for other instructions. -/
def caseAction : Instr → Option Action
  | .pEmpty => some .stop
  | .tWait1 => some .stop
  | .tFalse _ => some .dropOne
  | .tWait => some .stop
  | .tEmit => some .emitTlm
  | .tBad => some .dropOne
  | .rWait _ => some .stop
  | .rEmit _ => some .emitRsp
  | .rBad _ => some .dropOne
  | .uDrop _ => some .dropOne
  | .crc8 _ => none
  | .encode _ _ _ => none
  | .encWr _ _ => none
  | .encRd _ _ => none
  | .feed _ => none
  | .reset => none
  | .tlmDecode _ => none
  | .rspDecode _ => none
  | .opReserved6 => none
  | .opReserved7 => none
  | .cmdWr _ _ _ _ => none
  | .cmdRd _ _ _ => none
  | .rsp _ _ _ _ => none
  | .tlm _ _ _ _ _ _ _ _ _ _ _ => none
  | .leadTlm => none
  | .leadRsp _ => none
  | .leadUnk _ => none

/-- A buffer selects an iteration case: the condition of the case's own rule (R82 to R91).  No buffer
selects an instruction that is no iteration case. -/
def selects (B : List Byte) : Instr → Bool
  | .pEmpty => selPEmpty B
  | .tWait1 => selTWait1 B
  | .tFalse y => selTFalse y B
  | .tWait => selTWait B
  | .tEmit => selTEmit B
  | .tBad => selTBad B
  | .rWait x => selRWait x B
  | .rEmit x => selREmit x B
  | .rBad x => selRBad x B
  | .uDrop x => selUDrop x B
  | .crc8 _ => false
  | .encode _ _ _ => false
  | .encWr _ _ => false
  | .encRd _ _ => false
  | .feed _ => false
  | .reset => false
  | .tlmDecode _ => false
  | .rspDecode _ => false
  | .opReserved6 => false
  | .opReserved7 => false
  | .cmdWr _ _ _ _ => false
  | .cmdRd _ _ _ => false
  | .rsp _ _ _ _ => false
  | .tlm _ _ _ _ _ _ _ _ _ _ _ => false
  | .leadTlm => false
  | .leadRsp _ => false
  | .leadUnk _ => false

end Sys2Proof.Machine
end

