-- ==== Sys2Proof/Machine/Pseudo.lean ====
section
/-! DEFINITION. The pseudo-operations of R54, each an abbreviation and nothing more, the dispatch of an
emitted frame to its view (R108), and the two-channel reading of a `FEED` result (D6). -/

namespace Sys2Proof.Machine.Pseudo

/-- `FEED1 b`. -/
def feed1 (b : Byte) : Instr := .feed [b]
/-- `NOPFEED`. -/
def nopFeed : Instr := .feed []
/-- `WRITE reg, v`; the result of a step is what the transport is handed. -/
def write (reg v : Int) : Instr := .encode reg false v
/-- `READ reg, n`. -/
def read (reg n : Int) : Instr := .encode reg true n
/-- `CONNECT`: the transport's own opening is external (R131). -/
def connect : Instr := .reset
/-- `RECONNECT`. -/
def reconnect : Instr := .reset
/-- `CLOSE` (R134). -/
def close : Instr := .reset
/-- `CHECK f`: the `CRC8` of all but the last byte, compared with the last byte. -/
def check (f : List Byte) : Bool := frameValid f

/-- The view that a frame emitted by `FEED` goes to (R108). -/
def viewFor (f : TaggedFrame) : Instr :=
  match f.kind with
  | .TLM => .tlmDecode f.bytes
  | .RSP => .rspDecode f.bytes

/-- One of the two emission channels, recovered by filtering on the tag (D6). -/
def channel (k : Kind) (fs : List TaggedFrame) : List TaggedFrame :=
  fs.filter (·.kind == k)

end Sys2Proof.Machine.Pseudo
end

