-- ==== Sys2Proof/Safety.lean ====
section
/-! DEFINITION. The terms in which claims are stated: quiescence and its four shapes (R19), what an
emitted frame satisfies (R95), the invariant of the machine, the loop of `FEED` as a run of iteration
cases (R80), and sequences of `FEED`s (R21). -/

namespace Sys2Proof.Machine

open Sys2Proof.Config

/-- A quiescent buffer: the parser's decision is `Stop` (R19). -/
abbrev Quiescent (B : List Byte) : Prop := decideAction B = .stop

/-- The four shapes of a quiescent buffer (R19). -/
inductive QuiescentShape : List Byte → Prop where
  /-- (a) empty. -/
  | empty : QuiescentShape []
  /-- (b) the single byte `0xAA`. -/
  | magic0 : QuiescentShape [MAGIC0]
  /-- (c) length 2..36, starting `0xAA, 0x55`. -/
  | telemetry (rest : List Byte) (short : rest.length ≤ 34) :
      QuiescentShape (MAGIC0 :: MAGIC1 :: rest)
  /-- (d) length 1..3, the first byte's bit 7 clear. -/
  | response (b : Byte) (rest : List Byte) (clear : b.toNat < 128) (short : rest.length ≤ 2) :
      QuiescentShape (b :: rest)

/-- What every emitted frame satisfies (R95). -/
structure FrameOk (f : TaggedFrame) : Prop where
  /-- The last byte is the CRC of the bytes before it. -/
  valid : frameValid f.bytes = true
  /-- A frame of 4 bytes tagged `RSP` with bit 7 of its header clear, or one of 37 bytes tagged `TLM`
  that begins `AA 55`. -/
  shape : (f.kind = .RSP ∧ f.bytes.length = 4 ∧ ∃ h, f.bytes[0]? = some h ∧ h.toNat < 128) ∨
    (f.kind = .TLM ∧ f.bytes.length = 37 ∧ f.bytes[0]? = some 0xAA#8 ∧ f.bytes[1]? = some 0x55#8)

/-- The last result holds only good frames: those `FEED` emitted and those `ENCODE` built. -/
def ResultOk : Option Result → Prop
  | some (.frames fs) => ∀ f ∈ fs, FrameOk f
  | some (.sent f) => f.length = 4 ∧ frameValid f = true
  | some (.response r) => -32768 ≤ r.value ∧ r.value ≤ 32767
  | some (.byte _) => True
  | some (.telemetry _) => True
  | some (.decodeError _) => True
  | none => True

/-- The machine's invariant: `RXBUF` is quiescent (R19) and holds at most 36 bytes (R20), and the last
result is a good one (R45, R95, R106). -/
structure Inv (s : State) : Prop where
  quiescent : Quiescent s.rxbuf
  bounded   : s.rxbuf.length ≤ 36
  result    : ResultOk s.result

/-- The loop of R80 as `n` iteration cases run one after another by `exec`: the first stop ends it.
Holds the frames emitted, in order. -/
inductive Iterates : Nat → State → List TaggedFrame → State → Prop where
  | stop {s t : State} (decided : Quiescent s.rxbuf) (ran : exec (decodeHead s.rxbuf) s = .next t) :
      Iterates 1 s [] t
  | retry {n : Nat} {s t u : State} {fs gs : List TaggedFrame} (decided : ¬ Quiescent s.rxbuf)
      (ran : exec (decodeHead s.rxbuf) s = .next t) (emitted : t.result = some (.frames fs))
      (rest : Iterates n t gs u) : Iterates (n + 1) s (fs ++ gs) u

/-- A sequence of `FEED`s, with all the frames they return in order (R21). -/
inductive FeedSeq : List (List Byte) → State → List TaggedFrame → State → Prop where
  | done (s : State) : FeedSeq [] s [] s
  | feed {c : List Byte} {cs : List (List Byte)} {s t u : State} {fs gs : List TaggedFrame}
      (ran : exec (.feed c) s = .next t) (returned : t.result = some (.frames fs))
      (rest : FeedSeq cs t gs u) : FeedSeq (c :: cs) s (fs ++ gs) u

/-- A piece of the inbound stream as the parser takes it from the head: one dropped byte or one emitted
frame (R10, R15). -/
inductive Piece where
  | dropped (b : Byte)
  | frame (f : TaggedFrame)
  deriving DecidableEq, Repr

/-- The bytes of a piece. -/
def Piece.bytes : Piece → List Byte
  | .dropped b => [b]
  | .frame f => f.bytes

/-- The frame of a piece. -/
def Piece.frame? : Piece → Option TaggedFrame
  | .dropped _ => none
  | .frame f => some f

end Sys2Proof.Machine
end

