-- ==== Sys2Proof/Certificates/Slice0/Obligations.lean ====
section
/-! DEFINITION. The statements for the provers.  Each docstring says which rule or section of the spec it
formalises.  `RXBUF` is the block's whole memory and state, and a step's next state is written out as a
record update of the state before it, so every field not named in the update is unchanged.  The field
`result` is where the model keeps what an operation returns (assumption 1), and `frames []` there says that
nothing is emitted.  Frames, lead bytes and iteration cases run as instructions by assumptions 4 to 6. -/

open Sys2Proof Sys2Proof.Config Sys2Proof.Machine

/-! ### Encoding and stepping -/

/-- Words written out from the tables of `30_encoding.md` and `opcode_table.json` decode to the rows
they stand for.  The operation codes are the spec's decision D2. -/
def Obligations.WordsDecodeToTheirRows : Prop :=
  decode (.select 0b000 { Operands.zero with bytes := [0x01#8] }) = .ok (.crc8 [0x01#8]) ∧
  decode (.select 0b001 { Operands.zero with register := 1, isRead := true, value := 8 })
    = .ok (.encode 1 true 8) ∧
  decode (.form 0b0010 { Operands.zero with register := 1, value := -500 }) = .ok (.encWr 1 (-500)) ∧
  decode (.select 0b010 { Operands.zero with bytes := [0xAA#8] }) = .ok (.feed [0xAA#8]) ∧
  decode (.select 0b011 Operands.zero) = .ok .reset ∧
  decode (.select 0b101 { Operands.zero with bytes := [0x01#8, 0x0C#8, 0xFE#8, 0x63#8] })
    = .ok (.rspDecode [0x01#8, 0x0C#8, 0xFE#8, 0x63#8]) ∧
  decode (.outbound [0x90, 0x08, 0x00, 0x01]) = .ok (.cmdRd 0x10 0x08 0x01) ∧
  decode (.inbound [0x01, 0x0C, 0xFE, 0x63]) = .ok (.rsp 0x01 0x0C 0xFE 0x63) ∧
  decode (.lead 0x80) = .ok (.leadUnk 0x00) ∧
  decode (.iteration [0xAA#8, 0xAA#8]) = .ok (.tFalse 0xAA#8)

/-- Every well-formed instruction, with every operand, decodes from its encoding (R41, R44, R46, R52). -/
def Obligations.EncodingRoundTrips : Prop :=
  ∀ i : Instr, Sys2Proof.Laws.RoundTrip.Statement i

/-- No bit of inbound bytes, of an outbound frame or of a lead byte is dropped: what decodes to an
instruction is that instruction's encoding, and inbound bytes that are no frame decode to the `FEED` of
exactly those bytes (R25, R41, R44, R46). -/
def Obligations.FrameDecodingDropsNoBit : Prop :=
  ∀ i : Instr,
    (∀ f, decode (.inbound f) = .ok i → encode i = .inbound f ∨ i = .feed f) ∧
    (∀ f, decode (.outbound f) = .ok i → encode i = .outbound f) ∧
    (∀ b, decode (.lead b) = .ok i → encode i = .lead b)

/-- R46: the lead byte selects the branch, all 256 values covered: `0xAA`; bit 7 clear; the rest. -/
def Obligations.LeadByteMapCoversEveryByte : Prop :=
  ∀ b : Byte,
    (b.toNat = 0xAA → decode (.lead b) = .ok .leadTlm) ∧
    (b.toNat < 0x80 → ∃ x : RegAddr, x.toNat = b.toNat ∧ decode (.lead b) = .ok (.leadRsp x)) ∧
    (0x80 ≤ b.toNat → b.toNat ≠ 0xAA →
      ∃ x : RegAddr, x.toNat + 0x80 = b.toNat ∧ decode (.lead b) = .ok (.leadUnk x))

/-- A step takes the oldest submitted transaction and runs the instruction it decodes to; with none
submitted it runs the iteration case at the parse position (assumption 1, R15); outbound bytes that do not decode are
refused by name. -/
def Obligations.StepRunsDecodedInstruction : Prop :=
  ∀ s : State,
    (∀ t rest i, s.port = t :: rest → decode t = .ok i →
      step s = exec i { s with port := rest }) ∧
    (s.port = [] → step s = exec (decodeHead s.rxbuf) s) ∧
    (∀ t rest r, s.port = t :: rest → decode t = .error r → step s = .refused (.undecodable r))

/-- A table word placed for the next step runs as the instruction the decoder reads from it, on a buffer
that holds the word where the word is read from the buffer (assumption 3). -/
def Obligations.TableWordRunsNext : Prop :=
  ∀ (s : State) (nbits w : Nat) (i : Instr), decodeTableWord nbits w = some i →
    step (s.withFetchWord nbits w) =
      exec i { s with rxbuf := match tableTransaction nbits w with
                               | .lead b => [b]
                               | .iteration B => B
                               | _ => s.rxbuf }

/-! ### The CRC unit -/

/-- R62 to R64: code `000` is `CRC8`; it always completes, returns the checksum and changes nothing else;
the checksum starts at `0x00`, the value of the empty sequence, and absorbs the bytes in order, with no
final XOR. -/
def Obligations.Crc8ReturnsChecksum : Prop :=
  ∀ (bytes : List Byte) (s : State),
    (∀ o : Operands, decode (.select 0b000 o) = .ok (.crc8 o.bytes)) ∧
    exec (.crc8 bytes) s = .next { s with result := some (.byte (crc8 bytes)) } ∧
    crc8 [] = 0x00#8 ∧ ∀ b, crc8 (bytes ++ [b]) = crc8Step (crc8 bytes) b

/-- R61: one byte is absorbed by eight shifts, stated in the arithmetic of numbers 0..255. -/
def Obligations.CrcStepIsEightShifts : Prop :=
  ∀ acc b : Byte,
    let shift (a : Nat) : Nat := if 128 ≤ a then ((2 * a) ^^^ 0x07) % 256 else (2 * a) % 256
    (crc8Step acc b).toNat = shift^[8] (acc.toNat ^^^ b.toNat)

/-- R60: `CRC8` of any sequence is the remainder of the message times `x^8` modulo
`x^8 + x^2 + x + 1` over GF(2), bytes and bits most significant first. -/
def Obligations.Crc8IsPolynomialRemainder : Prop :=
  ∀ (bytes : List Byte) (s : State),
    let g : Polynomial (ZMod 2) :=
      Polynomial.X ^ 8 + Polynomial.X ^ 2 + Polynomial.X + 1
    let poly (b : Byte) : Polynomial (ZMod 2) :=
      ∑ k ∈ Finset.range 8, if b.getLsbD k then Polynomial.X ^ k else 0
    let message : Polynomial (ZMod 2) :=
      bytes.foldl (fun p b => p * Polynomial.X ^ 8 + poly b) 0
    ∃ c, exec (.crc8 bytes) s = .next { s with result := some (.byte c) } ∧
      (message * Polynomial.X ^ 8) %ₘ g = poly c

/-- R65: the step depends only on the XOR of its operands and is a bijection in each of them. -/
def Obligations.CrcStepIsBijection : Prop :=
  (∀ acc b : Byte, crc8Step acc b = crc8Step 0x00#8 (acc ^^^ b)) ∧
  (∀ acc : Byte, Function.Bijective (crc8Step acc)) ∧
  (∀ b : Byte, Function.Bijective (fun acc => crc8Step acc b))

/-- R66: linear over GF(2) on sequences of equal length; leading zeros do not change the result. -/
def Obligations.CrcIsLinear : Prop :=
  (∀ s t : List Byte, s.length = t.length →
    crc8 (List.zipWith (· ^^^ ·) s t) = crc8 s ^^^ crc8 t) ∧
  (∀ s : List Byte, crc8 (0x00#8 :: s) = crc8 s) ∧
  (∀ n : Nat, crc8 (List.replicate n 0x00#8) = 0x00#8)

/-- R67: flipping one bit anywhere changes the checksum. -/
def Obligations.CrcSeesEverySingleBitFlip : Prop :=
  ∀ (before after : List Byte) (b : Byte) (k : Nat), k < 8 →
    crc8 (before ++ b :: after) ≠ crc8 (before ++ (b ^^^ (1#8 <<< k)) :: after)

/-- R68: a sequence followed by its own checksum has checksum zero, and so the frame check is the same
as a zero checksum of the whole frame. -/
def Obligations.CrcResidueIsZero : Prop :=
  (∀ s : List Byte, crc8 (s ++ [crc8 s]) = 0x00#8) ∧
  (∀ f : List Byte, f ≠ [] → (frameValid f = true ↔ crc8 f = 0x00#8))

/-! ### The ENC unit -/

/-- R70, R71, R74, R75, R77: `ENCODE` runs on all integers and returns `[hdr, dlo, dhi, crc]` by the
closed form of R77; nothing else changes. -/
def Obligations.EncodeBuildsCommandFrame : Prop :=
  ∀ (register value : Int) (isRead : Bool) (s : State), ∃ hdr dlo dhi crc : Byte,
    exec (.encode register isRead value) s
      = .next { s with result := some (.sent [hdr, dlo, dhi, crc]) } ∧
    (hdr.toNat : Int) = (if isRead then 128 else 0) + register % 128 ∧
    (dlo.toNat : Int) = value % 256 ∧
    (dhi.toNat : Int) = (if isRead then 0 else (value / 256) % 256) ∧
    crc = crc8 [hdr, dlo, dhi]

/-- R72: a write request carries the low and high byte of `value mod 65536`. -/
def Obligations.WriteRequestCarriesSixteenBits : Prop :=
  ∀ (register value : Int) (s : State), ∃ hdr dlo dhi : Byte,
    exec (.encWr register value) s
      = .next { s with result := some (.sent [hdr, dlo, dhi, crc8 [hdr, dlo, dhi]]) } ∧
    (hdr.toNat : Int) = register % 128 ∧
    (dlo.toNat : Int) + 256 * dhi.toNat = value % 65536 ∧
    exec (.encWr register value) s = exec (.encode register false value) s

/-- R73: a read request carries the low byte of `value` as its count and a zero high byte. -/
def Obligations.ReadRequestCarriesCount : Prop :=
  ∀ (register value : Int) (s : State), ∃ hdr dlo : Byte,
    exec (.encRd register value) s
      = .next { s with result := some (.sent [hdr, dlo, 0x00#8, crc8 [hdr, dlo, 0x00#8]]) } ∧
    (hdr.toNat : Int) = 128 + register % 128 ∧
    (dlo.toNat : Int) = value % 256 ∧
    exec (.encRd register value) s = exec (.encode register true value) s

/-- R77 (a): a write depends on `value` only modulo 65536, a read only modulo 256, both on `register`
only modulo 128. -/
def Obligations.EncodeMasksItsOperands : Prop :=
  ∀ (r r' v v' : Int) (s : State), r % 128 = r' % 128 →
    (v % 65536 = v' % 65536 → exec (.encWr r v) s = exec (.encWr r' v') s) ∧
    (v % 256 = v' % 256 → exec (.encRd r v) s = exec (.encRd r' v') s)

/-- R41 to R43 with R45: an outbound frame that ends in its CRC is handed to the transport unchanged, and
is the frame that `ENC.WR` or `ENC.RD` builds from its fields; one with another last byte is never
produced (R77 b) and the model refuses it (assumption 5). -/
def Obligations.OutboundFramesAreThoseEncodeBuilds : Prop :=
  ∀ (r : RegAddr) (l h c : Byte) (s : State),
    (c = crc8 [rspLead r, l, h] →
      exec (.cmdWr r l h c) s = .next { s with result := some (.sent [rspLead r, l, h, c]) } ∧
      exec (.cmdWr r l h c) s = exec (.encWr r.toNat (l.toNat + 256 * h.toNat)) s) ∧
    (c ≠ crc8 [rspLead r, l, h] → exec (.cmdWr r l h c) s = .refused .notAFrame) ∧
    (c = crc8 [unkLead r, l, 0x00#8] →
      exec (.cmdRd r l c) s = .next { s with result := some (.sent [unkLead r, l, 0x00#8, c]) } ∧
      exec (.cmdRd r l c) s = exec (.encRd r.toNat l.toNat) s) ∧
    (c ≠ crc8 [unkLead r, l, 0x00#8] → exec (.cmdRd r l c) s = .refused .notAFrame)

/-! ### The DEC unit -/

/-- R82, R83, R85, R88: the four waiting cases are selected by these buffers and stop: `RXBUF` keeps
every byte, nothing is emitted. -/
def Obligations.WaitingCasesStop : Prop :=
  ∀ s : State,
    (s.rxbuf = [] → decodeHead s.rxbuf = .pEmpty ∧
      exec .pEmpty s = .next { s with result := some (.frames []) }) ∧
    (s.rxbuf = [0xAA#8] → decodeHead s.rxbuf = .tWait1 ∧
      exec .tWait1 s = .next { s with result := some (.frames []) }) ∧
    (∀ rest, s.rxbuf = 0xAA#8 :: 0x55#8 :: rest → rest.length + 2 < 37 →
      decodeHead s.rxbuf = .tWait ∧
      exec .tWait s = .next { s with result := some (.frames []) }) ∧
    (∀ (x : RegAddr) (b : Byte) rest, s.rxbuf = b :: rest → x.toNat = b.toNat →
      rest.length + 1 < 4 → decodeHead s.rxbuf = .rWait x ∧
      exec (.rWait x) s = .next { s with result := some (.frames []) })

/-- R84, R87, R90, R91: the four failing cases are selected by these buffers and drop exactly the leading byte, emit nothing, and keep
every byte behind it. -/
def Obligations.FailingCasesDropOneByte : Prop :=
  ∀ s : State,
    (∀ (y : Byte) rest, s.rxbuf = 0xAA#8 :: y :: rest → y ≠ 0x55#8 →
      decodeHead s.rxbuf = .tFalse y ∧
      exec (.tFalse y) s = .next { s with rxbuf := y :: rest, result := some (.frames []) }) ∧
    (∀ (body : List Byte) (c : Byte) rest, body.length = 34 →
      s.rxbuf = 0xAA#8 :: 0x55#8 :: (body ++ c :: rest) → crc8 (0xAA#8 :: 0x55#8 :: body) ≠ c →
      decodeHead s.rxbuf = .tBad ∧
      exec .tBad s
        = .next { s with rxbuf := 0x55#8 :: (body ++ c :: rest), result := some (.frames []) }) ∧
    (∀ (x : RegAddr) (h l d c : Byte) rest, s.rxbuf = h :: l :: d :: c :: rest →
      x.toNat = h.toNat → crc8 [h, l, d] ≠ c →
      decodeHead s.rxbuf = .rBad x ∧
      exec (.rBad x) s
        = .next { s with rxbuf := l :: d :: c :: rest, result := some (.frames []) }) ∧
    (∀ (x : RegAddr) (b : Byte) rest, s.rxbuf = b :: rest → x.toNat + 128 = b.toNat → b ≠ 0xAA#8 →
      decodeHead s.rxbuf = .uDrop x ∧
      exec (.uDrop x) s = .next { s with rxbuf := rest, result := some (.frames []) })

/-- R86, R89: the two emitting cases are selected by these buffers and emit a copy of the candidate, CRC byte included, and remove it; the
bytes behind it stay. -/
def Obligations.EmittingCasesTakeTheCandidate : Prop :=
  ∀ s : State,
    (∀ (body : List Byte) (c : Byte) rest, body.length = 34 →
      s.rxbuf = 0xAA#8 :: 0x55#8 :: (body ++ c :: rest) → crc8 (0xAA#8 :: 0x55#8 :: body) = c →
      decodeHead s.rxbuf = .tEmit ∧
      exec .tEmit s = .next { s with
        rxbuf := rest
        result := some (.frames [{ kind := .TLM, bytes := 0xAA#8 :: 0x55#8 :: (body ++ [c]) }]) }) ∧
    (∀ (x : RegAddr) (h l d c : Byte) rest, s.rxbuf = h :: l :: d :: c :: rest →
      x.toNat = h.toNat → crc8 [h, l, d] = c →
      decodeHead s.rxbuf = .rEmit x ∧
      exec (.rEmit x) s = .next { s with
        rxbuf := rest
        result := some (.frames [{ kind := .RSP, bytes := [h, l, d, c] }]) })

/-- R81: exactly one of the ten iteration cases applies to any buffer, it is the one the decoder reads,
and its action is `Decide`'s. -/
def Obligations.ExactlyOneCaseApplies : Prop :=
  ∀ B : List Byte, ∃ i : Instr,
    selects B i = true ∧ (∀ j, selects B j = true → j = i) ∧
    decode (.iteration B) = .ok i ∧ caseAction i = some (decideAction B)

/-- R81, R115: `Decide` makes its tests in this order, and the first that decides wins. -/
def Obligations.DecideTestsInOrder : Prop :=
  decideAction [] = .stop ∧
  ∀ (b : Byte) (rest : List Byte), let B := b :: rest
    (b = 0xAA#8 → rest = [] → decideAction B = .stop) ∧
    (∀ y more, b = 0xAA#8 → rest = y :: more → y ≠ 0x55#8 → decideAction B = .dropOne) ∧
    (∀ more, b = 0xAA#8 → rest = 0x55#8 :: more → B.length < 37 → decideAction B = .stop) ∧
    (∀ more, b = 0xAA#8 → rest = 0x55#8 :: more → 37 ≤ B.length →
      decideAction B = if some (crc8 (B.take 36)) = B[36]? then .emitTlm else .dropOne) ∧
    (b.toNat < 128 → B.length < 4 → decideAction B = .stop) ∧
    (b.toNat < 128 → 4 ≤ B.length →
      decideAction B = if some (crc8 (B.take 3)) = B[3]? then .emitRsp else .dropOne) ∧
    (128 ≤ b.toNat → b ≠ 0xAA#8 → decideAction B = .dropOne)

/-- An iteration case that the buffer does not select has no effect in R81, and the model refuses it
(assumption 4). -/
def Obligations.UnselectedCaseIsRefused : Prop :=
  ∀ (i : Instr) (s : State), caseAction i ≠ none → i ≠ decodeHead s.rxbuf →
    exec i s = .refused .caseNotSelected

/-- R46: a lead byte that stands at the parse position runs the iteration of its branch, which is the
iteration case of the buffer, and completes. -/
def Obligations.LeadByteRunsItsBranch : Prop :=
  ∀ (s : State) (b : Byte) (rest : List Byte), s.rxbuf = b :: rest →
    (b = 0xAA#8 → exec .leadTlm s = exec (decodeHead s.rxbuf) s ∧ ∃ t, exec .leadTlm s = .next t) ∧
    (∀ x : RegAddr, x.toNat = b.toNat →
      exec (.leadRsp x) s = exec (decodeHead s.rxbuf) s ∧ ∃ t, exec (.leadRsp x) s = .next t) ∧
    (∀ x : RegAddr, x.toNat + 128 = b.toNat → b ≠ 0xAA#8 →
      exec (.leadUnk x) s = .next { s with rxbuf := rest, result := some (.frames []) })

/-- R10, R80, R92, R94: `FEED` always completes; it cuts the stream (old buffer, then new bytes) from the
head into dropped bytes and emitted frames, in order, and keeps the rest, on which `Decide` stops. -/
def Obligations.FeedCutsTheStreamInOrder : Prop :=
  ∀ (newBytes : List Byte) (s : State), ∃ (pieces : List Piece) (rest : List Byte),
    exec (.feed newBytes) s = .next { s with
      rxbuf := rest
      result := some (.frames (pieces.filterMap Piece.frame?)) } ∧
    s.rxbuf ++ newBytes = pieces.flatMap Piece.bytes ++ rest ∧
    Quiescent rest

/-- R80, R94: the indivisible `FEED` (R32) is the run of iteration cases, one after another, that starts
after the append and ends at the first stop, within `len(RXBUF) + 1` iterations. -/
def Obligations.FeedIsTheRunOfIterations : Prop :=
  ∀ (newBytes : List Byte) (s : State), ∃ (n : Nat) (fs : List TaggedFrame) (u : State),
    n ≤ (s.rxbuf ++ newBytes).length + 1 ∧
    Iterates n (s.append newBytes) fs u ∧
    exec (.feed newBytes) s = .next { u with result := some (.frames fs) }

/-- R37: feeding `a` and then `b` leaves the same buffer and returns, in all and in order, the same
frames as feeding `a ++ b`. -/
def Obligations.ChunkingDoesNotMatter : Prop :=
  ∀ (a b : List Byte) (s : State), ∃ (t u : State) (fs gs : List TaggedFrame),
    exec (.feed a) s = .next t ∧ t.result = some (.frames fs) ∧
    exec (.feed b) t = .next u ∧ u.result = some (.frames gs) ∧
    exec (.feed (a ++ b)) s = .next { u with result := some (.frames (fs ++ gs)) }

/-- R21, R97: over a session that begins quiescent, the buffer and the frames depend only on the
concatenation of the chunks. -/
def Obligations.SessionDependsOnlyOnTheStream : Prop :=
  ∀ (cs ds : List (List Byte)) (s t u : State) (fs gs : List TaggedFrame),
    Quiescent s.rxbuf → cs.flatten = ds.flatten → FeedSeq cs s fs t → FeedSeq ds s gs u →
    fs = gs ∧ t.rxbuf = u.rxbuf

/-- R45, R95: every frame a `FEED` returns has its length, its lead, its tag and its CRC, in every
state. -/
def Obligations.EmittedFramesAreValid : Prop :=
  ∀ (newBytes : List Byte) (s : State), ∃ (t : State) (fs : List TaggedFrame),
    exec (.feed newBytes) s = .next t ∧ t.result = some (.frames fs) ∧
    ∀ f ∈ fs, FrameOk f

/-- R19: a buffer is quiescent exactly when it has one of the four shapes; it then holds at most 36
bytes (R20). -/
def Obligations.QuiescentBuffersHaveFourShapes : Prop :=
  ∀ B : List Byte, (Quiescent B ↔ QuiescentShape B) ∧ (Quiescent B → B.length ≤ 36)

/-- R19, R20, R95: every step, whatever is submitted, keeps `RXBUF` quiescent and at most 36 bytes
long, and leaves only validated frames as its result. -/
def Obligations.EveryStepKeepsTheBufferQuiescent : Prop :=
  ∀ s t : State, Inv s → step s = .next t → Inv t

/-- R132, D7: the invariant holds after reset, where `RXBUF` is empty. -/
def Obligations.ResetStateIsQuiescent : Prop :=
  Inv State.reset ∧ State.reset.rxbuf = []

/-- R96: on a quiescent buffer `FEED []` changes no byte and emits nothing. -/
def Obligations.FeedOfNothingChangesNothing : Prop :=
  ∀ s : State, Quiescent s.rxbuf →
    exec (.feed []) s = .next { s with result := some (.frames []) }

/-- R20: during a `FEED` the buffer holds at most 36 bytes more than it is given, so at most 37 bytes
byte by byte. -/
def Obligations.BufferPeakIsBounded : Prop :=
  ∀ (s t : State) (newBytes : List Byte), Quiescent s.rxbuf → exec (.feed newBytes) s = .next t →
    (s.append newBytes).rxbuf.length ≤ 36 + newBytes.length ∧ t.rxbuf.length ≤ 36

/-- R15, R113: one iteration removes 0, 1, 4 or 37 bytes from the head, none exactly when it stops,
and leaves the bytes behind them as they are; the frames it emits are the bytes it removes. -/
def Obligations.IterationAdvancesTheParsePosition : Prop :=
  ∀ s : State, ∃ (t : State) (gone : List Byte) (fs : List TaggedFrame),
    exec (decodeHead s.rxbuf) s = .next t ∧ t.result = some (.frames fs) ∧
    s.rxbuf = gone ++ t.rxbuf ∧
    (gone.length = 0 ∨ gone.length = 1 ∨ gone.length = 4 ∨ gone.length = 37) ∧
    (gone = [] ↔ Quiescent s.rxbuf) ∧
    (fs = [] ∨ ∃ f, fs = [f] ∧ f.bytes = gone)

/-- R87: after a failed telemetry candidate the next iteration is always a complete command-response
candidate on the byte `0x55`. -/
def Obligations.FailedTelemetryIsRescannedAtOnce : Prop :=
  ∀ s : State, selects s.rxbuf .tBad = true → ∃ t, exec .tBad s = .next t ∧
    (decodeHead t.rxbuf = .rEmit 0x55 ∨ decodeHead t.rxbuf = .rBad 0x55)

/-- R111, R113, R115: each framing error of an iteration is met by the action of its event: a short
read stops, every other drops one byte. -/
def Obligations.FramingErrorsMeetTheirAction : Prop :=
  ∀ (B : List Byte) (e : Event), eventOf (decodeHead B) = some e →
    e.errorClass = .framing ∧ e.action = some (decideAction B) ∧
    (e = .feShort ↔ decideAction B = .stop)

/-- R41, R44, R108: an inbound frame is fed to the DEC unit; on an empty buffer a valid one is emitted
whole, with its tag, and the buffer ends empty. -/
def Obligations.InboundFramesAreFed : Prop :=
  ∀ (s : State),
    (∀ (r : RegAddr) (l h c : Byte),
      (exec (.rsp r l h c) s = exec (.feed [rspLead r, l, h, c]) s ∧
        ∃ t, exec (.rsp r l h c) s = .next t) ∧
      (s.rxbuf = [] → c = crc8 [rspLead r, l, h] →
        exec (.rsp r l h c) s = .next { s with
          result := some (.frames [{ kind := .RSP, bytes := [rspLead r, l, h, c] }]) })) ∧
    (∀ (v w : Byte) (t a b d e f g q : Field32) (c : Byte),
      (exec (.tlm v w t a b d e f g q c) s = exec (.feed (frame37 v w t a b d e f g q c)) s ∧
        ∃ u, exec (.tlm v w t a b d e f g q c) s = .next u) ∧
      (s.rxbuf = [] → frameValid (frame37 v w t a b d e f g q c) = true →
        exec (.tlm v w t a b d e f g q c) s = .next { s with
          result := some (.frames
            [{ kind := .TLM, bytes := frame37 v w t a b d e f g q c }]) }))

/-- R130: code `011` is `RESET`, whatever operands stand beside it; it empties `RXBUF`, whatever it holds,
returns nothing, and a second `RESET` changes nothing more. -/
def Obligations.ResetEmptiesTheBuffer : Prop :=
  ∀ s : State, (∀ o : Operands, decode (.select 0b011 o) = .ok .reset) ∧
    exec .reset s = .next { s with rxbuf := [], result := none } ∧
    ∀ t, exec .reset s = .next t → exec .reset t = .next t

/-- R138: behind `AA 55`, or behind a byte with bit 7 clear, everything waits until the candidate is
complete: nothing is emitted and nothing is dropped. -/
def Obligations.IncompleteCandidateHoldsTheLine : Prop :=
  ∀ (newBytes : List Byte) (s : State),
    (∀ rest, s.rxbuf ++ newBytes = 0xAA#8 :: 0x55#8 :: rest → rest.length + 2 < 37 →
      exec (.feed newBytes) s
        = .next { s with rxbuf := s.rxbuf ++ newBytes, result := some (.frames []) }) ∧
    (∀ (b : Byte) rest, s.rxbuf ++ newBytes = b :: rest → b.toNat < 128 → rest.length + 1 < 4 →
      exec (.feed newBytes) s
        = .next { s with rxbuf := s.rxbuf ++ newBytes, result := some (.frames []) })

/-- R140: a line at zero yields one response of register 0, value 0 per four bytes. -/
def Obligations.ZeroRunsYieldZeroFrames : Prop :=
  ∀ (n : Nat) (s : State), s.rxbuf = [] →
    exec (.feed (List.replicate (4 * n) 0x00#8)) s = .next { s with
      result := some (.frames
        (List.replicate n { kind := .RSP, bytes := [0x00#8, 0x00#8, 0x00#8, 0x00#8] })) }

/-- S5 with C10: past any number of unrecognised leading bytes a valid 4-byte frame is emitted, exactly
once, and the buffer ends empty. -/
def Obligations.ResyncPastUnrecognisedBytes : Prop :=
  ∀ (garbage : List Byte) (h l d : Byte) (s : State), s.rxbuf = [] →
    (∀ b ∈ garbage, 128 ≤ b.toNat ∧ b ≠ 0xAA#8) → h.toNat < 128 →
    exec (.feed (garbage ++ [h, l, d, crc8 [h, l, d]])) s = .next { s with
      result := some (.frames [{ kind := .RSP, bytes := [h, l, d, crc8 [h, l, d]] }]) }

/-- R51, R137: a read request that comes back inbound is not emitted: its header is dropped and the
three bytes behind it are classified, unless the header is `0xAA`. -/
def Obligations.LoopedReadRequestLosesItsHeader : Prop :=
  ∀ (r v : Int) (s : State), s.rxbuf = [] → r % 128 ≠ 0x2A → ∃ hdr dlo crc : Byte,
    exec (.encRd r v) s = .next { s with result := some (.sent [hdr, dlo, 0x00#8, crc]) } ∧
    exec (.feed [hdr, dlo, 0x00#8, crc]) s = exec (.feed [dlo, 0x00#8, crc]) s

/-- R51, R77 (c), R104 to R106: a write request that comes back inbound is emitted as one response, and
the response view gives its register modulo 128 and its value wrapped to 16 bits back. -/
def Obligations.LoopedWriteRequestReturnsItsValue : Prop :=
  ∀ (r v : Int) (s : State), s.rxbuf = [] → ∃ (f : List Byte) (rec : CommandResponseFrame),
    exec (.encWr r v) s = .next { s with result := some (.sent f) } ∧
    exec (.feed f) s
      = .next { s with result := some (.frames [{ kind := .RSP, bytes := f }]) } ∧
    exec (.rspDecode f) s = .next { s with result := some (.response rec) } ∧
    (rec.register.toNat : Int) = r % 128 ∧
    rec.value % 65536 = v % 65536 ∧ -32768 ≤ rec.value ∧ rec.value ≤ 32767 ∧
    (-32768 ≤ v → v ≤ 32767 → rec.value = v)

/-! ### The views -/

/-- R44, R100, R101: the telemetry view returns every field of a frame as it was laid out, whatever the
reserved bytes and the CRC byte are. -/
def Obligations.TelemetryViewReturnsTheFields : Prop :=
  ∀ (v w : Byte) (t a b d e f g q : Field32) (c : Byte) (s : State),
    exec (.tlmDecode (frame37 v w t a b d e f g q c)) s = .next { s with
      result := some (.telemetry
        { timestamp := t, accel := ⟨a, b, d⟩, gyro := ⟨e, f, g⟩, speed := q }) }

/-- R26, R100, R102: on any 37 bytes the telemetry view completes, and each field is the little-endian
number of the four bytes at its indices. -/
def Obligations.TelemetryFieldsAreLittleEndian : Prop :=
  ∀ (f : List Byte) (s : State), f.length = 37 → ∃ rec : TelemetryFrame,
    exec (.tlmDecode f) s = .next { s with result := some (.telemetry rec) } ∧
    ∀ (k : Nat) (v : Field32),
      (k, v) ∈ [(4, rec.timestamp), (8, rec.accel.x), (12, rec.accel.y), (16, rec.accel.z),
        (20, rec.gyro.x), (24, rec.gyro.y), (28, rec.gyro.z), (32, rec.speed)] →
      ∃ b0 b1 b2 b3 : Byte, f[k]? = some b0 ∧ f[k + 1]? = some b1 ∧ f[k + 2]? = some b2 ∧
        f[k + 3]? = some b3 ∧
        v.toNat = b0.toNat + 2 ^ 8 * b1.toNat + 2 ^ 16 * b2.toNat + 2 ^ 24 * b3.toNat

/-- R104 to R106: on any 4 bytes the response view completes with the header's low seven bits and the
signed little-endian value; the header's bit 7 and the CRC byte are not examined. -/
def Obligations.ResponseViewReturnsRegisterAndValue : Prop :=
  ∀ (h l d c : Byte) (s : State), ∃ rec : CommandResponseFrame,
    exec (.rspDecode [h, l, d, c]) s = .next { s with result := some (.response rec) } ∧
    rec.register.toNat = h.toNat % 128 ∧
    rec.value = (if l.toNat + 256 * d.toNat < 32768 then (l.toNat + 256 * d.toNat : Int)
      else (l.toNat + 256 * d.toNat : Int) - 65536) ∧
    -32768 ≤ rec.value ∧ rec.value ≤ 32767

/-- R107, R116: a view given another length returns the explicit error; no state changes and no partial
record is returned.  That the error is a value returned in a next state, and no abort, is a choice: the
spec's decision D9, log entry 10. -/
def Obligations.ViewsReportWrongLength : Prop :=
  ∀ (f : List Byte) (s : State),
    (f.length ≠ 37 →
      exec (.tlmDecode f) s = .next { s with result := some (.decodeError .wrongLength) }) ∧
    (f.length ≠ 4 →
      exec (.rspDecode f) s = .next { s with result := some (.decodeError .wrongLength) })

/-- R108: every frame a `FEED` returns is decoded by the view its tag names, without an error. -/
def Obligations.EmittedFramesDecodeWithoutError : Prop :=
  ∀ (newBytes : List Byte) (s : State), ∃ (t : State) (fs : List TaggedFrame),
    exec (.feed newBytes) s = .next t ∧ t.result = some (.frames fs) ∧
    ∀ f ∈ fs, ∃ u, exec (Pseudo.viewFor f) t = .next u ∧
      ((f.kind = .TLM ∧ ∃ rec, u.result = some (.telemetry rec)) ∨
        (f.kind = .RSP ∧ ∃ rec, u.result = some (.response rec)))

/-! ### Frames and independence -/

/-- R11, R31, R34: the CRC unit, the ENC unit, its outbound frames and the views leave `RXBUF` alone:
every read of it answers as before, and nothing the surroundings have yet to submit changes. -/
def Obligations.OnlyTheDecUnitTouchesTheBuffer : Prop :=
  ∀ (s t : State) (bytes : List Byte) (register value : Int) (isRead : Bool) (r : RegAddr)
    (l h c : Byte) (i : Instr),
    i ∈ [.crc8 bytes, .encode register isRead value, .encWr register value, .encRd register value,
      .cmdWr r l h c, .cmdRd r l c, .tlmDecode bytes, .rspDecode bytes] →
    exec i s = .next t →
    t.rxbuf = s.rxbuf ∧ t.port = s.port ∧ t.cells = s.cells ∧
      ∀ k n, memRead t.rxbuf k n = memRead s.rxbuf k n

/-- R14, R16, R18: no instruction depends on anything but its operands and `RXBUF`: neither an earlier
result nor what is still to be submitted. -/
def Obligations.BufferIsTheOnlyState : Prop :=
  ∀ (i : Instr) (s s' : State), s.rxbuf = s'.rxbuf →
    (∀ t, exec i s = .next t →
      exec i s' = .next { rxbuf := t.rxbuf, port := s'.port, result := t.result }) ∧
    (∀ r, exec i s = .refused r → exec i s' = .refused r)

/-- R34: `ENCODE` commutes with `FEED` and with `RESET`: in either order the same frame is sent, the
same frames are emitted and the same buffer is left. -/
def Obligations.EncodeCommutesWithInbound : Prop :=
  ∀ (register value : Int) (isRead : Bool) (i : Instr) (s : State),
    (i = .reset ∨ ∃ bs, i = .feed bs) → ∃ (out : List Byte) (t u : State),
      exec (.encode register isRead value) s = .next { s with result := some (.sent out) } ∧
      exec i s = .next t ∧
      exec i { s with result := some (.sent out) } = .next t ∧
      exec (.encode register isRead value) t = .next u ∧
      u = { t with result := some (.sent out) }

/-- R52: the reserved operation codes are refused, in every state. -/
def Obligations.ReservedOperationsAreRefused : Prop :=
  ∀ s : State, exec .opReserved6 s = .refused .reservedOperation ∧
    exec .opReserved7 s = .refused .reservedOperation

/-! ### Every transaction that can occur has an effect -/

/-- R25, R50, R80, R112: whatever bytes arrive on the inbound wire, a frame or not, the step that takes
them is the `FEED` of those bytes, and it completes. -/
def Obligations.InboundBytesAreAlwaysFed : Prop :=
  ∀ (f : List Byte) (s : State),
    step (s.withTransaction (.inbound f)) = exec (.feed f) s ∧
    ∃ t, step (s.withTransaction (.inbound f)) = .next t

/-- R40, R50: the only transactions that decode to nothing are outbound bytes that cannot occur: of a
length other than 4, or a read request with a high data byte other than `0x00`.  That a step refuses them
is the model's choice (assumption 5). -/
def Obligations.OnlyImpossibleOutboundBytesAreUndecodable : Prop :=
  ∀ t : Transaction, (∃ r, decode t = .error r) ↔
    ∃ f, t = .outbound f ∧ (f.length ≠ 4 ∨
      ∃ hdr dlo dhi crc : Byte, f = [hdr, dlo, dhi, crc] ∧ 128 ≤ hdr.toNat ∧ dhi ≠ 0x00#8)
end

