-- ==== Sys2Proof/Laws/State.lean ====
section
/-! SUPPORT. One lemma per field per update of `State`, true by `rfl`. -/

namespace Sys2Proof.Machine

@[simp] theorem State.append_rxbuf (bs : List Byte) (s : State) :
    (s.append bs).rxbuf = s.rxbuf ++ bs := rfl
@[simp] theorem State.append_port (bs : List Byte) (s : State) : (s.append bs).port = s.port := rfl
@[simp] theorem State.append_result (bs : List Byte) (s : State) :
    (s.append bs).result = s.result := rfl

@[simp] theorem State.dropHead_rxbuf (n : Nat) (s : State) :
    (s.dropHead n).rxbuf = s.rxbuf.drop n := rfl
@[simp] theorem State.dropHead_port (n : Nat) (s : State) : (s.dropHead n).port = s.port := rfl
@[simp] theorem State.dropHead_result (n : Nat) (s : State) :
    (s.dropHead n).result = s.result := rfl

@[simp] theorem State.clear_rxbuf (s : State) : s.clear.rxbuf = [] := rfl
@[simp] theorem State.clear_port (s : State) : s.clear.port = s.port := rfl
@[simp] theorem State.clear_result (s : State) : s.clear.result = s.result := rfl

@[simp] theorem State.returning_rxbuf (r : Result) (s : State) :
    (s.returning r).rxbuf = s.rxbuf := rfl
@[simp] theorem State.returning_port (r : Result) (s : State) : (s.returning r).port = s.port := rfl
@[simp] theorem State.returning_result (r : Result) (s : State) :
    (s.returning r).result = some r := rfl

@[simp] theorem State.raiseWrongLength_rxbuf (s : State) :
    s.raiseWrongLength.rxbuf = s.rxbuf := rfl
@[simp] theorem State.raiseWrongLength_port (s : State) : s.raiseWrongLength.port = s.port := rfl
@[simp] theorem State.raiseWrongLength_result (s : State) :
    s.raiseWrongLength.result = some (.decodeError .wrongLength) := rfl

@[simp] theorem State.perform_rxbuf (act : Action) (s : State) :
    (s.perform act).rxbuf = s.rxbuf.drop act.consumed := rfl
@[simp] theorem State.perform_port (act : Action) (s : State) : (s.perform act).port = s.port := rfl
@[simp] theorem State.perform_result (act : Action) (s : State) :
    (s.perform act).result = some (.frames (act.emitted s.rxbuf)) := rfl

@[simp] theorem feedBytes_rxbuf (bs : List Byte) (s : State) :
    (feedBytes bs s).rxbuf = (parse (s.rxbuf ++ bs)).2 := rfl
@[simp] theorem feedBytes_port (bs : List Byte) (s : State) : (feedBytes bs s).port = s.port := rfl
@[simp] theorem feedBytes_result (bs : List Byte) (s : State) :
    (feedBytes bs s).result = some (.frames (parse (s.rxbuf ++ bs)).1) := rfl

@[simp] theorem State.taken_rxbuf (s : State) : s.taken.rxbuf = s.rxbuf := rfl
@[simp] theorem State.taken_port (s : State) : s.taken.port = s.port.tail := rfl
@[simp] theorem State.taken_result (s : State) : s.taken.result = s.result := rfl

@[simp] theorem State.withTransaction_rxbuf (s : State) (t : Transaction) :
    (s.withTransaction t).rxbuf = s.rxbuf := rfl
@[simp] theorem State.withTransaction_port (s : State) (t : Transaction) :
    (s.withTransaction t).port = t :: s.port := rfl
@[simp] theorem State.withTransaction_result (s : State) (t : Transaction) :
    (s.withTransaction t).result = s.result := rfl

/-- Submitting a transaction makes the next step run what it decodes to, on the state as it was. -/
theorem step_withTransaction {t : Transaction} {i : Instr} (h : decode t = .ok i) (s : State) :
    step (s.withTransaction t) = exec i s := by
  simp [step, State.fetch, State.taken, State.withTransaction, h]

end Sys2Proof.Machine
end

