-- ==== Sys2Proof/Laws/Ops.lean ====
section
/-! SUPPORT. One lemma per shared operation that says what it can do. -/

namespace Sys2Proof.Machine

open Sys2Proof.Config

/-- A read inside the buffer answers those bytes, any other read answers nothing (R30). -/
theorem memRead_eq_some_iff (B : List Byte) (i n : Nat) (bs : List Byte) :
    memRead B i n = some bs ↔ i + n ≤ B.length ∧ bs = (B.drop i).take n := by
  simp only [memRead]
  split <;> simp_all [eq_comm]

/-! ### Cells -/

theorem le_of_mem_cellsFrom {i : Nat} {B : List Byte} {c : Host.Cell} (h : c ∈ cellsFrom i B) :
    i ≤ c.1 := by
  induction B generalizing i with
  | nil => simp [cellsFrom] at h
  | cons b B ih =>
    rcases List.mem_cons.mp h with rfl | h
    · exact le_rfl
    · exact (Nat.le_succ i).trans (ih h)

theorem wf_cellsFrom (i : Nat) (B : List Byte) : Memory.wf (cellsFrom i B) := by
  induction B generalizing i with
  | nil => exact List.Pairwise.nil
  | cons b B ih => exact List.Pairwise.cons (fun c hc => le_of_mem_cellsFrom hc) (ih (i + 1))

/-- The cells of every state are in canonical form, so every operation on `RXBUF` keeps it. -/
theorem State.cells_wf (s : State) : Memory.wf s.cells := wf_cellsFrom 0 s.rxbuf

theorem lookup_cellsFrom (i j : Nat) (B : List Byte) :
    (cellsFrom i B).lookup (i + j) = B[j]? := by
  induction B generalizing i j with
  | nil => rfl
  | cons b B ih =>
    cases j with
    | zero => simp [cellsFrom]
    | succ j =>
      have h : (i + (j + 1) == i) = false := by simp
      have := ih (i + 1) j
      rw [Nat.add_assoc, Nat.add_comm 1 j] at this
      simp only [cellsFrom, List.lookup, h, List.getElem?_cons_succ, this]

/-! ### The parser -/

@[simp] theorem decideAction_nil : decideAction [] = .stop := rfl

/-- An action never removes more than the buffer holds. -/
theorem consumed_le_length (B : List Byte) : (decideAction B).consumed ≤ B.length := by
  cases B with
  | nil => simp [Action.consumed]
  | cons b B =>
    simp only [decideAction, telemetryBranch, responseBranch]
    repeat' split
    all_goals simp_all [Action.consumed]

/-- Only a stop removes nothing (R94). -/
theorem consumed_eq_zero_iff (act : Action) : act.consumed = 0 ↔ act = .stop := by
  cases act <;> simp [Action.consumed]

/-- What the decision tells of the buffer where it emits a telemetry frame (R86). -/
theorem decideAction_eq_emitTlm {B : List Byte} (h : decideAction B = .emitTlm) :
    magicHead B = true ∧ TLM_LEN ≤ B.length ∧ headCrcOk B 36 = true := by
  cases B with
  | nil => simp at h
  | cons b B =>
    simp only [decideAction, telemetryBranch, responseBranch] at h
    repeat' split at h
    all_goals simp_all [magicHead]

/-- What the decision tells of the buffer where it emits a command-response frame (R89). -/
theorem decideAction_eq_emitRsp {B : List Byte} (h : decideAction B = .emitRsp) :
    (∃ b, B[0]? = some b ∧ bit7Clear b = true) ∧ CMD_LEN ≤ B.length ∧ headCrcOk B 3 = true := by
  cases B with
  | nil => simp at h
  | cons b B =>
    simp only [decideAction, telemetryBranch, responseBranch] at h
    repeat' split at h
    all_goals simp_all

theorem drain_of_stop {B : List Byte} (n : Nat) (h : decideAction B = .stop) :
    drain n B = ([], B) := by
  cases n <;> simp [drain, h]

theorem drain_succ_of_ne_stop {B : List Byte} (n : Nat) (h : decideAction B ≠ .stop) :
    drain (n + 1) B =
      ((decideAction B).emitted B ++ (drain n (B.drop (decideAction B).consumed)).1,
        (drain n (B.drop (decideAction B).consumed)).2) := by
  cases hd : decideAction B with
  | stop => exact absurd hd h
  | dropOne => simp [drain, hd]
  | emitRsp => simp [drain, hd]
  | emitTlm => simp [drain, hd]

theorem length_drop_lt {B : List Byte} (h : decideAction B ≠ .stop) :
    (B.drop (decideAction B).consumed).length < B.length := by
  have h1 := consumed_le_length B
  have h2 := mt (consumed_eq_zero_iff (decideAction B)).mp h
  rw [List.length_drop]
  omega

/-- `len + 1` iterations are enough: more change nothing (R94). -/
theorem drain_eq_parse (n : Nat) (B : List Byte) (h : B.length < n) : drain n B = parse B := by
  induction n using Nat.strong_induction_on generalizing B with
  | _ n ih =>
    by_cases hs : decideAction B = .stop
    · rw [parse, drain_of_stop n hs, drain_of_stop _ hs]
    · obtain ⟨m, rfl⟩ := Nat.exists_eq_succ_of_ne_zero (by omega : n ≠ 0)
      have hlt := length_drop_lt hs
      have hpos : 0 < B.length := by omega
      rw [parse, drain_succ_of_ne_stop m hs, drain_succ_of_ne_stop _ hs,
        ih m (by omega) _ (by omega)]
      by_cases hm : B.length < m + 1 ∧ B.length = m
      · rw [hm.2, ih m (by omega) _ (by omega)]
      · rw [ih B.length (by omega) _ (by omega)]

theorem parse_of_stop {B : List Byte} (h : decideAction B = .stop) : parse B = ([], B) :=
  drain_of_stop _ h

/-- The loop of R80, one turn. -/
theorem parse_of_ne_stop {B : List Byte} (h : decideAction B ≠ .stop) :
    parse B =
      ((decideAction B).emitted B ++ (parse (B.drop (decideAction B).consumed)).1,
        (parse (B.drop (decideAction B).consumed)).2) := by
  rw [parse, drain_succ_of_ne_stop _ h, drain_eq_parse _ _ (length_drop_lt h)]

/-- Induction along the loop: a property of every buffer the decision stops on, kept from the shorter
buffer to the longer one, holds of every buffer. -/
theorem parse_induction {P : List Byte → Prop} (stop : ∀ B, decideAction B = .stop → P B)
    (retry : ∀ B, decideAction B ≠ .stop → P (B.drop (decideAction B).consumed) → P B)
    (B : List Byte) : P B := by
  induction hn : B.length using Nat.strong_induction_on generalizing B with
  | _ n ih =>
    by_cases h : decideAction B = .stop
    · exact stop B h
    · exact retry B h (ih _ (hn ▸ length_drop_lt h) _ rfl)

/-! ### Shared endings -/

/-- An iteration ends in its action where it is selected and is refused where it is not. -/
theorem whenSelected_eq_next_iff (sel : Bool) (act : Action) (s t : State) :
    whenSelected sel act s = .next t ↔ sel = true ∧ t = s.perform act := by
  cases sel <;> simp [whenSelected, eq_comm]

theorem sendFrame_eq_next_iff (f : List Byte) (s t : State) :
    sendFrame f s = .next t ↔ frameValid f = true ∧ t = s.returning (.sent f) := by
  cases h : frameValid f <;> simp [sendFrame, h, eq_comm]

end Sys2Proof.Machine
end

