-- ==== Sys2Proof/Laws/Dispatch.lean ====
section
/-! SUPPORT. What `exec` can do, said once over all instructions; later proofs cite these. -/

namespace Sys2Proof.Machine

open Sys2Proof.Config

/-- The next states an instruction can reach: nothing but a result, a whole `FEED`, one iteration, or
the clear of `RESET`. -/
inductive Effect (s : State) : State → Prop where
  | returned (r : Option Result) (ok : ResultOk r) : Effect s { s with result := r }
  | fed (bs : List Byte) : Effect s (feedBytes bs s)
  | iterated : Effect s (s.perform (decideAction s.rxbuf))
  | cleared : Effect s { s.clear with result := none }

theorem frameValid_frame4 (h l d c : Byte) :
    frameValid (frame4 h l d c) = true ↔ c = crc8 [h, l, d] := by
  simp [frameValid, frame4]

theorem frameValid_encodeFrame (r : Int) (rd : Bool) (v : Int) :
    frameValid (encodeFrame r rd v) = true := by
  simp [encodeFrame, frameValid_frame4]

theorem sext16_bounds {u : Nat} (h : u < 65536) : -32768 ≤ sext16 u ∧ sext16 u ≤ 32767 := by
  simp only [sext16]
  split <;> omega

theorem leWord_lt (l h : Byte) : leWord l h < 65536 := by
  have hl := l.isLt
  have hh := h.isLt
  simp only [leWord]
  omega

theorem resultOk_response (f : List Byte) : ResultOk (some (.response (responseOf f))) :=
  sext16_bounds (leWord_lt _ _)

/-! ### A selected case is the decided one -/

theorem decideAction_of_magicHead {B : List Byte} (h : magicHead B = true) :
    decideAction B = if B.length < TLM_LEN then .stop
      else if headCrcOk B 36 then .emitTlm else .dropOne := by
  match B, h with
  | [], h => simp [magicHead] at h
  | [_], h => simp [magicHead] at h
  | a :: b :: B, h =>
    simp only [magicHead, List.getElem?_cons_zero, List.getElem?_cons_succ, Bool.and_eq_true,
      beq_iff_eq, Option.some.injEq] at h
    obtain ⟨rfl, rfl⟩ := h
    simp [decideAction, telemetryBranch]

theorem decideAction_of_rspLead {B : List Byte} {x : RegAddr} (h : B[0]? = some (rspLead x)) :
    decideAction B = responseBranch B := by
  match B, h with
  | b :: B, h =>
    obtain rfl : b = rspLead x := by simpa using h
    simp [decideAction]

theorem decideAction_of_magic0 {B : List Byte} (h : B[0]? = some MAGIC0) :
    decideAction B = telemetryBranch B := by
  match B, h with
  | b :: B, h =>
    obtain rfl : b = MAGIC0 := by simpa using h
    simp [decideAction]

theorem decideAction_of_unkLead {B : List Byte} {x : RegAddr} (h : B[0]? = some (unkLead x))
    (hx : unkLead x ≠ MAGIC0) : decideAction B = .dropOne := by
  match B, h with
  | b :: B, h =>
    obtain rfl : b = unkLead x := by simpa using h
    simp [decideAction, hx]

/-- The action of a selected iteration case is `Decide`'s (R81). -/
theorem caseAction_of_selects {B : List Byte} {i : Instr} (h : selects B i = true) :
    caseAction i = some (decideAction B) := by
  cases i with
  | pEmpty => simp_all [selects, selPEmpty, caseAction]
  | tWait1 =>
    simp only [selects, selTWait1, Bool.and_eq_true, beq_iff_eq] at h
    simp [caseAction, decideAction_of_magic0 h.1, telemetryBranch, h.2]
  | tFalse y =>
    simp only [selects, selTFalse, Bool.and_eq_true, beq_iff_eq, bne_iff_ne] at h
    obtain ⟨⟨h0, h1⟩, hy⟩ := h
    have hl : ¬ B.length < 2 := by
      have := (List.getElem?_eq_some_iff.mp h1).1
      omega
    simp [caseAction, decideAction_of_magic0 h0, telemetryBranch, h1, hy, hl]
  | tWait => simp_all [selects, selTWait, caseAction, decideAction_of_magicHead]
  | tEmit =>
    simp only [selects, selTEmit, Bool.and_eq_true, decide_eq_true_eq] at h
    simp [caseAction, decideAction_of_magicHead h.1.1, h.2, Nat.not_lt.mpr h.1.2]
  | tBad =>
    simp only [selects, selTBad, Bool.and_eq_true, decide_eq_true_eq, Bool.not_eq_true'] at h
    simp [caseAction, decideAction_of_magicHead h.1.1, h.2, Nat.not_lt.mpr h.1.2]
  | rWait x =>
    simp only [selects, selRWait, Bool.and_eq_true, decide_eq_true_eq, beq_iff_eq] at h
    simp [caseAction, decideAction_of_rspLead h.1.1, responseBranch, h.2]
  | rEmit x =>
    simp only [selects, selREmit, Bool.and_eq_true, decide_eq_true_eq, beq_iff_eq] at h
    simp [caseAction, decideAction_of_rspLead h.1.1, responseBranch, h.2, Nat.not_lt.mpr h.1.2]
  | rBad x =>
    simp only [selects, selRBad, Bool.and_eq_true, decide_eq_true_eq, beq_iff_eq,
      Bool.not_eq_true'] at h
    simp [caseAction, decideAction_of_rspLead h.1.1, responseBranch, h.2, Nat.not_lt.mpr h.1.2]
  | uDrop x =>
    simp only [selects, selUDrop, Bool.and_eq_true, beq_iff_eq, bne_iff_ne] at h
    simp [caseAction, decideAction_of_unkLead h.1 h.2]
  | crc8 | encode | encWr | encRd | feed | reset | tlmDecode | rspDecode | opReserved6
  | opReserved7 | cmdWr | cmdRd | rsp | tlm | leadTlm | leadRsp | leadUnk => simp [selects] at h

/-- An iteration case runs exactly where its buffer selects it, and ends in its action. -/
theorem exec_iteration {i : Instr} {act : Action} (h : caseAction i = some act) (s : State) :
    exec i s = whenSelected (selects s.rxbuf i) act s := by
  cases i <;> simp [caseAction] at h <;> subst h <;> rfl

/-- Everything an instruction can do when it answers a next state. -/
theorem exec_effect {i : Instr} {s t : State} (h : exec i s = .next t) : Effect s t := by
  have iter : ∀ act, caseAction i = some act → Effect s t := fun act ha => by
    rw [exec_iteration ha, whenSelected_eq_next_iff] at h
    have hd := caseAction_of_selects h.1
    rw [ha] at hd
    rw [h.2, Option.some.inj hd]
    exact .iterated
  cases i with
  | crc8 bs => cases h; exact .returned _ trivial
  | encode r rd v => cases h; exact .returned _ ⟨rfl, frameValid_encodeFrame r rd v⟩
  | encWr r v => cases h; exact .returned _ ⟨rfl, frameValid_encodeFrame r false v⟩
  | encRd r v => cases h; exact .returned _ ⟨rfl, frameValid_encodeFrame r true v⟩
  | feed bs => cases h; exact .fed bs
  | reset => cases h; exact .cleared
  | tlmDecode f =>
    simp only [exec, execTlmDecode] at h
    split at h <;> cases h <;> exact .returned _ trivial
  | rspDecode f =>
    simp only [exec, execRspDecode] at h
    split at h <;> cases h
    · exact .returned _ trivial
    · exact .returned _ (resultOk_response f)
  | opReserved6 => cases h
  | opReserved7 => cases h
  | cmdWr r l d c =>
    obtain ⟨hv, rfl⟩ := (sendFrame_eq_next_iff _ _ _).mp h
    exact .returned _ ⟨rfl, hv⟩
  | cmdRd r n c =>
    obtain ⟨hv, rfl⟩ := (sendFrame_eq_next_iff _ _ _).mp h
    exact .returned _ ⟨rfl, hv⟩
  | rsp r l d c => cases h; exact .fed _
  | tlm v w a b d e f g q u c => cases h; exact .fed _
  | leadTlm =>
    obtain ⟨hs, rfl⟩ := (whenSelected_eq_next_iff _ _ _ _).mp h
    rw [← decideAction_of_magic0 (by simpa using hs)]
    exact .iterated
  | leadRsp x =>
    obtain ⟨hs, rfl⟩ := (whenSelected_eq_next_iff _ _ _ _).mp h
    rw [← decideAction_of_rspLead (by simpa using hs)]
    exact .iterated
  | leadUnk x =>
    obtain ⟨hs, rfl⟩ := (whenSelected_eq_next_iff _ _ _ _).mp h
    simp only [Bool.and_eq_true, beq_iff_eq, bne_iff_ne] at hs
    rw [← decideAction_of_unkLead hs.1 hs.2]
    exact .iterated
  | pEmpty => exact iter _ rfl
  | tWait1 => exact iter _ rfl
  | tFalse y => exact iter _ rfl
  | tWait => exact iter _ rfl
  | tEmit => exact iter _ rfl
  | tBad => exact iter _ rfl
  | rWait x => exact iter _ rfl
  | rEmit x => exact iter _ rfl
  | rBad x => exact iter _ rfl
  | uDrop x => exact iter _ rfl

/-- No instruction touches what the surroundings have yet to submit. -/
theorem exec_port {i : Instr} {s t : State} (h : exec i s = .next t) : t.port = s.port := by
  cases exec_effect h <;> rfl

end Sys2Proof.Machine
end

