-- ==== Sys2Proof/Tests/Slice0.lean ====
section
/-! SUPPORT. The model's own tests.  Words and expected results come from the spec: the encodings of
`30_encoding.md` and `opcode_table.json`, the vectors S, V and the programs P of `95_test_vectors.md`
(each test names its source).  The last part shows, for every statement with hypotheses, a concrete
state and operands that meet them. -/

namespace Sys2Proof.Tests

-- Elaborated one after another: many kernel evaluations at once each reserve a thread's memory.
set_option Elab.async false

open Sys2Proof Sys2Proof.Config Sys2Proof.Machine

/-- The state after a step that has one. -/
def after : StepOutcome → Option State
  | .next t => some t
  | .fault _ => none
  | .refused _ => none

/-- The refusal of a step that has one. -/
def refusal : StepOutcome → Option Refusal
  | .next _ => none
  | .fault _ => none
  | .refused r => some r

/-- The result and the buffer after a step that has a next state. -/
def seen (o : StepOutcome) : Option (Option Result × List Byte) :=
  (after o).map fun t => (t.result, t.rxbuf)

/-- The reset state with these bytes buffered. -/
def holding (B : List Byte) : State := { State.reset with rxbuf := B }

/-- A response frame as `FEED` returns it. -/
def rspFrame (h l d c : Byte) : TaggedFrame := { kind := .RSP, bytes := [h, l, d, c] }

/-- The S7 frame without its CRC byte. -/
def s7Body : List Byte :=
  [0xAA, 0x55, 0x00, 0x00, 0xE8, 0x03, 0x00, 0x00, 0x00, 0x00, 0x80, 0x3F, 0x00, 0x00, 0x00, 0x40]
  ++ [0x00, 0x00, 0x40, 0x40, 0x00, 0x00, 0x80, 0x40, 0x00, 0x00, 0xA0, 0x40, 0x00, 0x00, 0xC0, 0x40]
  ++ [0x00, 0x00, 0xE0, 0x40]

/-- The S7 frame. -/
def s7 : List Byte := s7Body ++ [0xB8]

/-- A telemetry frame as `FEED` returns it. -/
def tlmFrame (f : List Byte) : TaggedFrame := { kind := .TLM, bytes := f }

/-- The frame `T2` of P4, byte by byte. -/
def t2 : List Byte :=
  [0xAA, 0x55, 0x12, 0x80, 0xFF, 0xFF, 0xFF, 0xFF, 0x00, 0x00, 0x80, 0xBF, 0x00, 0x00, 0x00, 0x00]
  ++ [0x00, 0x00, 0x00, 0x3F, 0x00, 0x00, 0x00, 0xC0, 0x00, 0x00, 0xC8, 0x42, 0x00, 0x00, 0x80, 0x3E]
  ++ [0x00, 0x00, 0x00, 0x80, 0x92]

/-! ### Ill-formed instructions are refused by the check -/

theorem test_wf_cmdWr_crc : Instr.wf (.cmdWr 0x01 0x0C 0xFE 0x64) = false := by decide +kernel
theorem test_wf_cmdRd_crc : Instr.wf (.cmdRd 0x10 0x08 0x00) = false := by decide +kernel
theorem test_wf_leadUnk_magic : Instr.wf (.leadUnk 0x2A) = false := by decide
theorem test_wf_tFalse_magic : Instr.wf (.tFalse 0x55) = false := by decide
theorem test_wf_uDrop_magic : Instr.wf (.uDrop 0x2A) = false := by decide
theorem test_wf_cmdWr_good : Instr.wf (.cmdWr 0x01 0x0C 0xFE 0x63) = true := by decide +kernel

/-! ### Every row's word, written out from the tables, decodes to the row -/

theorem test_decode_crc8 : decode (.select 0b000 { Operands.zero with bytes := [0x01] })
    = .ok (.crc8 [0x01]) := by decide
theorem test_decode_encode : decode (.select 0b001
    { Operands.zero with register := 0x81, isRead := true, value := -1 })
    = .ok (.encode 0x81 true (-1)) := by decide
theorem test_decode_encWr : decode (.form 0b0010 { Operands.zero with register := 1, value := -500 })
    = .ok (.encWr 1 (-500)) := by decide
theorem test_decode_encRd : decode (.form 0b0011 { Operands.zero with register := 16, value := 8 })
    = .ok (.encRd 16 8) := by decide
theorem test_decode_feed : decode (.select 0b010 { Operands.zero with bytes := [0xAA] })
    = .ok (.feed [0xAA]) := by decide
theorem test_decode_reset : decode (.select 0b011 Operands.zero) = .ok .reset := by decide
theorem test_decode_tlmDecode : decode (.select 0b100 { Operands.zero with bytes := [0xAA] })
    = .ok (.tlmDecode [0xAA]) := by decide
theorem test_decode_rspDecode : decode (.select 0b101 { Operands.zero with bytes := [0x01] })
    = .ok (.rspDecode [0x01]) := by decide
theorem test_decode_opReserved6 : decode (.select 0b110 Operands.zero) = .ok .opReserved6 := by decide
theorem test_decode_opReserved7 : decode (.select 0b111 Operands.zero) = .ok .opReserved7 := by decide
/-- V-E1: `01 0C FE 63` as an outbound frame. -/
theorem test_decode_cmdWr : decode (.outbound [0x01, 0x0C, 0xFE, 0x63])
    = .ok (.cmdWr 0x01 0x0C 0xFE 0x63) := by decide
/-- V-E7: `90 08 00 01`. -/
theorem test_decode_cmdRd : decode (.outbound [0x90, 0x08, 0x00, 0x01])
    = .ok (.cmdRd 0x10 0x08 0x01) := by decide
/-- S3: the same bytes inbound are a response (R51). -/
theorem test_decode_rsp : decode (.inbound [0x01, 0x0C, 0xFE, 0x63])
    = .ok (.rsp 0x01 0x0C 0xFE 0x63) := by decide
/-- S7 with the field values its line states. -/
theorem test_decode_tlm : decode (.inbound s7) = .ok (.tlm 0x00 0x00 1000 0x3F800000 0x40000000
    0x40400000 0x40800000 0x40A00000 0x40C00000 0x40E00000 0xB8) := by decide
theorem test_decode_leadTlm : decode (.lead 0b10101010) = .ok .leadTlm := by decide
theorem test_decode_leadRsp : decode (.lead 0b01111110) = .ok (.leadRsp 0b1111110) := by decide
theorem test_decode_leadUnk : decode (.lead 0b10101011) = .ok (.leadUnk 0b0101011) := by decide
theorem test_decode_pEmpty : decode (.iteration []) = .ok .pEmpty := by decide
theorem test_decode_tWait1 : decode (.iteration [0b10101010]) = .ok .tWait1 := by decide
theorem test_decode_tFalse : decode (.iteration [0b10101010, 0b10101010])
    = .ok (.tFalse 0b10101010) := by decide
theorem test_decode_tWait : decode (.iteration [0b10101010, 0b01010101]) = .ok .tWait := by decide
theorem test_decode_tEmit : decode (.iteration s7) = .ok .tEmit := by decide +kernel
/-- P3, iteration 1. -/
theorem test_decode_tBad : decode (.iteration (s7Body ++ [0x47])) = .ok .tBad := by decide +kernel
theorem test_decode_rWait : decode (.iteration [0b01000000, 0x47]) = .ok (.rWait 0b1000000) := by
  decide
theorem test_decode_rEmit : decode (.iteration [0x01, 0x0C, 0xFE, 0x63, 0xFF])
    = .ok (.rEmit 0b0000001) := by decide +kernel
theorem test_decode_rBad : decode (.iteration [0x0C, 0xFE, 0x64, 0x01]) = .ok (.rBad 0b0001100) := by
  decide +kernel
theorem test_decode_uDrop : decode (.iteration [0b10000000]) = .ok (.uDrop 0b0000000) := by decide

/-! ### Patterns without a row: run where the spec gives an effect, else rejected by name -/

/-- R52: the fourth character is the `isRead` operand, which `RESET` does not have. -/
theorem test_form_reset : decode (.form 0b0111 Operands.zero) = .ok .reset := by decide
/-- R50: a read request with a high byte is never produced. -/
theorem test_reject_read_high : decode (.outbound [0x90, 0x34, 0x12, 0x00])
    = .error .readHighByte := by decide
theorem test_reject_outbound_length : decode (.outbound [0x90]) = .error .outboundLength := by decide
/-- V-D13: four inbound bytes of which none starts a frame are fed and dropped one by one (R50). -/
theorem test_inbound_unrecognised :
    seen (step (State.reset.withTransaction (.inbound [0x80, 0xA9, 0xAB, 0xFF])))
    = some (some (.frames []), []) := by decide
/-- The example of R85: a part of a frame arriving alone waits. -/
theorem test_inbound_part : seen (step (State.reset.withTransaction (.inbound [0xAA, 0x55, 0x00])))
    = some (some (.frames []), [0xAA, 0x55, 0x00]) := by decide

/-! ### Table words -/

theorem test_word_feed : decodeTableWord 8 0b010 = some (.feed []) := by decide
theorem test_word_cmdRd : decodeTableWord 32 0x90080001 = some (.cmdRd 0x10 0x08 0x01) := by decide
theorem test_word_rsp : decodeTableWord 32 0x010CFE63 = some (.rsp 0x01 0x0C 0xFE 0x63) := by decide
theorem test_word_lead : decodeTableWord 8 0x80 = some (.leadUnk 0x00) := by decide
theorem test_word_tFalse : decodeTableWord 16 0xAA00 = some (.tFalse 0x00) := by decide
theorem test_word_runs : seen (step (State.reset.withFetchWord 16 0xAA00))
    = some (some (.frames []), [0x00]) := by decide

/-! ### The CRC unit -/

/-- V-C5: `F4` is also the published check value of the parameter set. -/
theorem test_crc8_check : seen (exec (.crc8 [0x31, 0x32, 0x33, 0x34, 0x35, 0x36, 0x37, 0x38, 0x39])
    State.reset) = some (some (.byte 0xF4), []) := by decide +kernel
/-- V-C8 and V-C9: a trailing zero byte changes the result, a leading one does not. -/
theorem test_crc8_zeros : crc8 [0x01, 0x00] = 0x15 ∧ crc8 [0x00, 0x01] = 0x07 := by decide +kernel
/-- V-C4: the first iteration sees bit 7 set. -/
theorem test_crc8Step_msb : crc8Step 0x00 0x80 = 0x89 := by decide

/-! ### The ENC unit -/

/-- V-E14: register bit 7 does not become the read flag; the value is masked. -/
theorem test_encode_masks : seen (exec (.encode 0x81 false 70000) State.reset)
    = some (some (.sent [0x01, 0x70, 0x11, 0xBE]), []) := by decide +kernel
/-- V-E12: a negative count. -/
theorem test_encode_read_negative : seen (exec (.encode 3 true (-1)) State.reset)
    = some (some (.sent [0x83, 0xFF, 0x00, 0x61]), []) := by decide +kernel
/-- V-E6: the most negative value. -/
theorem test_encWr_min : seen (exec (.encWr 5 (-32768)) State.reset)
    = some (some (.sent [0x05, 0x00, 0x80, 0x49]), []) := by decide +kernel
/-- V-E8: the high byte of a count is discarded. -/
theorem test_encRd_high : seen (exec (.encRd 0x10 0x1234) State.reset)
    = some (some (.sent [0x90, 0x34, 0x00, 0x04]), []) := by decide +kernel
/-- V-E16: data bytes equal to the magic pair are legal. -/
theorem test_cmdWr_magic_data : seen (exec (.cmdWr 0x2A 0xAA 0x55 0xF2) (holding [0x01]))
    = some (some (.sent [0x2A, 0xAA, 0x55, 0xF2]), [0x01]) := by decide +kernel
/-- R45: a wrong last byte makes no frame. -/
theorem test_cmdWr_crc : refusal (exec (.cmdWr 0x01 0x0C 0xFE 0x64) State.reset)
    = some .notAFrame := by decide +kernel
/-- V-E15: the header equals the magic byte. -/
theorem test_cmdRd_magic : seen (exec (.cmdRd 0x2A 0x55 0x82) State.reset)
    = some (some (.sent [0xAA, 0x55, 0x00, 0x82]), []) := by decide +kernel

/-! ### The DEC unit -/

/-- V-D11: a stray zero swallows the start of a genuine frame. -/
theorem test_feed_swallows : seen (exec (.feed [0x00, 0x01, 0x0C, 0x31, 0x00]) State.reset)
    = some (some (.frames [rspFrame 0x00 0x01 0x0C 0x31]), [0x00]) := by decide +kernel
/-- P3: a corrupted telemetry frame, then a response: one spurious frame, and the response. -/
theorem test_feed_corrupt :
    seen (exec (.feed (s7Body ++ [0x47, 0x01, 0x0C, 0xFE, 0x63])) State.reset)
    = some (some (.frames [rspFrame 0x00 0x00 0x00 0x00, rspFrame 0x01 0x0C 0xFE 0x63]), []) := by
  decide +kernel
/-- V-D18. -/
theorem test_reset : seen (exec .reset (holding [0xAA, 0x55, 0x00])) = some (none, []) := by decide
/-- V-D15: magic bytes inside a response are data. -/
theorem test_rsp_data : seen (exec (.rsp 0x05 0xAA 0x55 0xF6) State.reset)
    = some (some (.frames [rspFrame 0x05 0xAA 0x55 0xF6]), []) := by decide +kernel
/-- P4: `T2`, with non-zero reserved bytes, behind one noise byte. -/
theorem test_tlm_reserved : seen (exec (.tlm 0x12 0x80 0xFFFFFFFF 0xBF800000 0x00000000 0x3F000000
    0xC0000000 0x42C80000 0x3E800000 0x80000000 0x92) (holding [0xC3]))
    = some (some (.frames [tlmFrame t2]), []) := by
  decide +kernel
/-- V-D6, first iteration. -/
theorem test_leadTlm : seen (exec .leadTlm (holding [0xAA, 0x01, 0x0C, 0xFE, 0x63]))
    = some (some (.frames []), [0x01, 0x0C, 0xFE, 0x63]) := by decide
/-- V-D2. -/
theorem test_leadRsp : seen (exec (.leadRsp 0x01) (holding [0x01, 0x0C, 0xFE, 0x63]))
    = some (some (.frames [rspFrame 0x01 0x0C 0xFE 0x63]), []) := by decide +kernel
/-- V-D8. -/
theorem test_leadUnk : seen (exec (.leadUnk 0x10) (holding [0x90, 0x08, 0x00, 0x01]))
    = some (some (.frames []), [0x08, 0x00, 0x01]) := by decide
/-- R82. -/
theorem test_pEmpty : seen (exec .pEmpty State.reset) = some (some (.frames []), []) := by decide
/-- R83. -/
theorem test_tWait1 : seen (exec .tWait1 (holding [0xAA])) = some (some (.frames []), [0xAA]) := by
  decide
/-- V-D5: the first `AA` is dropped, the second kept. -/
theorem test_tFalse : seen (exec (.tFalse 0xAA) (holding [0xAA, 0xAA]))
    = some (some (.frames []), [0xAA]) := by decide
/-- V-D12. -/
theorem test_tWait : seen (exec .tWait (holding [0xAA, 0x55, 0x00, 0x82]))
    = some (some (.frames []), [0xAA, 0x55, 0x00, 0x82]) := by decide
/-- V-D17. -/
theorem test_tEmit : seen (exec .tEmit (holding (s7 ++ [0x01])))
    = some (some (.frames [tlmFrame s7]), [0x01]) := by decide +kernel
/-- P3, iteration 1: only the first byte goes. -/
theorem test_tBad : seen (exec .tBad (holding (s7Body ++ [0x47])))
    = some (some (.frames []), s7Body.tail ++ [0x47]) := by decide +kernel
/-- V-D3. -/
theorem test_rWait : seen (exec (.rWait 0x01) (holding [0x01, 0x0C, 0xFE]))
    = some (some (.frames []), [0x01, 0x0C, 0xFE]) := by decide
/-- V-D7: the all-zero frame. -/
theorem test_rEmit : seen (exec (.rEmit 0x00) (holding [0x00, 0x00, 0x00, 0x00, 0x00]))
    = some (some (.frames [rspFrame 0x00 0x00 0x00 0x00]), [0x00]) := by decide +kernel
/-- V-D10, first iteration. -/
theorem test_rBad : seen (exec (.rBad 0x01) (holding [0x01, 0x0C, 0xFE, 0x64]))
    = some (some (.frames []), [0x0C, 0xFE, 0x64]) := by decide +kernel
/-- V-D13: a boundary of the unrecognised range. -/
theorem test_uDrop : seen (exec (.uDrop 0x2B) (holding [0xAB, 0xFF]))
    = some (some (.frames []), [0xFF]) := by decide
/-- R81: a case that the buffer does not select. -/
theorem test_not_selected : refusal (exec .tEmit (holding [0xAA])) = some .caseNotSelected := by decide
/-- R52: reserved codes are refused. -/
theorem test_reserved : refusal (step (State.reset.withFetchWord 8 0b110)) = some .reservedOperation := by
  decide

/-! ### The views -/

/-- V-V10. -/
theorem test_tlmDecode : seen (exec (.tlmDecode s7) State.reset)
    = some (some (.telemetry ⟨1000, ⟨0x3F800000, 0x40000000, 0x40400000⟩,
        ⟨0x40800000, 0x40A00000, 0x40C00000⟩, 0x40E00000⟩), []) := by decide
/-- V-V11. -/
theorem test_tlmDecode_short : seen (exec (.tlmDecode s7Body) (holding [0x01]))
    = some (some (.decodeError .wrongLength), [0x01]) := by decide
/-- V-V7: header bit 7 set, register masked; with V-V4: the sign threshold. -/
theorem test_rspDecode : seen (exec (.rspDecode [0x90, 0x00, 0x80, 0x01]) State.reset)
    = some (some (.response { register := 16, value := -32768 }), []) := by decide
/-- V-V9. -/
theorem test_rspDecode_long : seen (exec (.rspDecode [0x01, 0x0C, 0xFE, 0x63, 0x00]) State.reset)
    = some (some (.decodeError .wrongLength), []) := by decide

/-! ### Witnesses: what each statement assumes can be met -/

theorem witness_FrameDecodingDropsNoBit :
    decode (.inbound [0x01, 0x0C, 0xFE, 0x64]) = .ok (.rsp 0x01 0x0C 0xFE 0x64) ∧
    decode (.inbound s7) = .ok (.tlm 0x00 0x00 1000 0x3F800000 0x40000000
      0x40400000 0x40800000 0x40A00000 0x40C00000 0x40E00000 0xB8) ∧
    decode (.outbound [0x80, 0xFF, 0x00, 0x00]) = .ok (.cmdRd 0x00 0xFF 0x00) ∧
    decode (.lead 0x7F) = .ok (.leadRsp 0x7F) := by decide

theorem witness_FrameDecodingDropsNoBit_fed :
    decode (.inbound [0x90, 0x08, 0x00, 0x01]) = .ok (.feed [0x90, 0x08, 0x00, 0x01]) ∧
    decode (.inbound (List.replicate 37 0x00)) = .ok (.feed (List.replicate 37 0x00)) := by decide

theorem witness_LeadByteMapCoversEveryByte :
    (0xAA : Byte).toNat = 0xAA ∧ (0x7F : Byte).toNat < 0x80 ∧
    0x80 ≤ (0x80 : Byte).toNat ∧ (0x80 : Byte).toNat ≠ 0xAA := by decide

theorem witness_StepRunsDecodedInstruction :
    decode (.select 0b011 Operands.zero) = .ok .reset ∧
    (State.reset.withTransaction (.select 0b011 Operands.zero)).port
      = .select 0b011 Operands.zero :: [] ∧
    State.reset.port = [] ∧ decode (.outbound [0x90]) = .error .outboundLength := by decide

theorem witness_TableWordRunsNext :
    decodeTableWord 8 0x05 = some (.rspDecode []) ∧ decodeTableWord 8 0xAA = some .leadTlm ∧
    decodeTableWord 16 0xAA55 = some .tWait ∧
    decodeTableWord 32 0x80000000 = some (.cmdRd 0x00 0x00 0x00) := by decide

theorem witness_CrcIsLinear : ([0x01, 0x80] : List Byte).length = ([0xFF, 0x00] : List Byte).length := by
  decide

theorem witness_CrcSeesEverySingleBitFlip : 0 < 8 ∧ 7 < 8 := by decide

theorem witness_CrcResidueIsZero : ([0x00] : List Byte) ≠ [] := by decide

theorem witness_EncodeMasksItsOperands :
    (1 : Int) % 128 = 129 % 128 ∧ (70000 : Int) % 65536 = 4464 % 65536 ∧
    (256 : Int) % 256 = 0 % 256 := by decide

theorem witness_OutboundFramesAreThoseEncodeBuilds :
    (0x63 : Byte) = crc8 [rspLead 0x01, 0x0C, 0xFE] ∧ (0x64 : Byte) ≠ crc8 [rspLead 0x01, 0x0C, 0xFE] ∧
    (0x01 : Byte) = crc8 [unkLead 0x10, 0x08, 0x00#8] ∧ (0x00 : Byte) ≠ crc8 [unkLead 0x10, 0x08, 0x00#8] :=
  by decide +kernel

theorem witness_WaitingCasesStop :
    (holding []).rxbuf = [] ∧ (holding [0xAA]).rxbuf = [0xAA] ∧
    (holding [0xAA, 0x55]).rxbuf = 0xAA :: 0x55 :: [] ∧
    (holding (0xAA :: 0x55 :: List.replicate 34 0xFF)).rxbuf = 0xAA :: 0x55 :: List.replicate 34 0xFF ∧
    (List.replicate 34 (0xFF : Byte)).length + 2 < 37 ∧
    (holding [0x7F, 0xAA, 0x55]).rxbuf = 0x7F :: [0xAA, 0x55] ∧
    (0x7F : RegAddr).toNat = (0x7F : Byte).toNat ∧ ([0xAA, 0x55] : List Byte).length + 1 < 4 := by decide

theorem witness_FailingCasesDropOneByte :
    (holding [0xAA, 0xAA]).rxbuf = 0xAA :: 0xAA :: [] ∧ (0xAA : Byte) ≠ 0x55 ∧
    (List.replicate 34 (0x00 : Byte)).length = 34 ∧
    (holding (blankTlm ++ [0x00])).rxbuf = 0xAA#8 :: 0x55#8 :: (List.replicate 34 0x00 ++ 0x00 :: []) ∧
    crc8 (0xAA#8 :: 0x55#8 :: List.replicate 34 0x00) ≠ 0x00 ∧
    crc8 [0x01, 0x0C, 0xFE] ≠ 0x64 ∧ (0x01 : RegAddr).toNat = (0x01 : Byte).toNat ∧
    (0x00 : RegAddr).toNat + 128 = (0x80 : Byte).toNat ∧ (0x80 : Byte) ≠ 0xAA ∧
    (0x7F : RegAddr).toNat + 128 = (0xFF : Byte).toNat := by decide +kernel

theorem witness_EmittingCasesTakeTheCandidate :
    (s7Body.drop 2).length = 34 ∧
    (holding s7).rxbuf = 0xAA#8 :: 0x55#8 :: (s7Body.drop 2 ++ 0xB8 :: []) ∧
    crc8 (0xAA#8 :: 0x55#8 :: s7Body.drop 2) = 0xB8 ∧
    (holding [0x7F, 0xFF, 0xFF, 0x04]).rxbuf = 0x7F :: 0xFF :: 0xFF :: 0x04 :: [] ∧
    (0x7F : RegAddr).toNat = (0x7F : Byte).toNat ∧ crc8 [0x7F, 0xFF, 0xFF] = 0x04 := by decide +kernel

theorem witness_DecideTestsInOrder :
    (0xAA : Byte) = 0xAA#8 ∧ (0x54 : Byte) ≠ 0x55#8 ∧
    (0xAA#8 :: 0x55#8 :: List.replicate 34 (0x00 : Byte)).length < 37 ∧
    37 ≤ (0xAA#8 :: 0x55#8 :: List.replicate 35 (0x00 : Byte)).length ∧
    (0x7F : Byte).toNat < 128 ∧ ([0x7F, 0x00, 0x00] : List Byte).length < 4 ∧
    4 ≤ ([0x7F, 0x00, 0x00, 0x00] : List Byte).length ∧
    128 ≤ (0x80 : Byte).toNat ∧ (0x80 : Byte) ≠ 0xAA#8 := by decide

theorem witness_UnselectedCaseIsRefused :
    caseAction .tEmit ≠ none ∧ Instr.tEmit ≠ decodeHead (holding [0xAA]).rxbuf := by decide

theorem witness_LeadByteRunsItsBranch :
    (holding [0xAA, 0x01]).rxbuf = 0xAA#8 :: [0x01] ∧ (holding [0x7F]).rxbuf = 0x7F :: [] ∧
    (0x7F : RegAddr).toNat = (0x7F : Byte).toNat ∧ (holding [0xFF]).rxbuf = 0xFF :: [] ∧
    (0x7F : RegAddr).toNat + 128 = (0xFF : Byte).toNat ∧ (0xFF : Byte) ≠ 0xAA#8 := by decide

theorem witness_SessionDependsOnlyOnTheStream :
    Quiescent State.reset.rxbuf ∧
    ([[0x01, 0x0C], [0xFE, 0x63]] : List (List Byte)).flatten = [[0x01, 0x0C, 0xFE, 0x63]].flatten ∧
    (∃ fs t, FeedSeq [[0x01, 0x0C], [0xFE, 0x63]] State.reset fs t) ∧
    (∃ gs u, FeedSeq [[0x01, 0x0C, 0xFE, 0x63]] State.reset gs u) :=
  ⟨rfl, rfl,
    ⟨_, _, .feed rfl (feedBytes_result _ _) (.feed rfl (feedBytes_result _ _) (.done _))⟩,
    ⟨_, _, .feed rfl (feedBytes_result _ _) (.done _)⟩⟩

theorem witness_EveryStepKeepsTheBufferQuiescent :
    Inv (holding [0xAA, 0x55]) ∧ ∃ t, step (holding [0xAA, 0x55]) = .next t :=
  ⟨⟨rfl, by decide, trivial⟩, _, rfl⟩

theorem witness_FeedOfNothingChangesNothing : Quiescent (holding [0x01, 0x0C]).rxbuf := by decide +kernel

theorem witness_BufferPeakIsBounded :
    Quiescent (holding (0xAA :: 0x55 :: List.replicate 34 0x00)).rxbuf ∧
    ∃ t, exec (.feed [0x00]) (holding (0xAA :: 0x55 :: List.replicate 34 0x00)) = .next t :=
  ⟨by decide, _, rfl⟩

theorem witness_FailedTelemetryIsRescannedAtOnce :
    selects (holding (s7Body ++ [0x47])).rxbuf .tBad = true := by decide +kernel

theorem witness_FramingErrorsMeetTheirAction :
    eventOf (decodeHead [0xAA]) = some .feShort ∧ eventOf (decodeHead [0xAA, 0x00]) = some .feMagic ∧
    eventOf (decodeHead (s7Body ++ [0x47])) = some .feCrcTlm ∧
    eventOf (decodeHead [0x01, 0x0C, 0xFE, 0x64]) = some .feCrcRsp ∧
    eventOf (decodeHead [0x80]) = some .feLead := by decide +kernel

theorem witness_InboundFramesAreFed :
    (holding []).rxbuf = [] ∧ (0x63 : Byte) = crc8 [rspLead 0x01, 0x0C, 0xFE] ∧
    frameValid (frame37 0x00 0x00 1000 0x3F800000 0x40000000 0x40400000 0x40800000 0x40A00000
      0x40C00000 0x40E00000 0xB8) = true := by decide +kernel

theorem witness_ResetEmptiesTheBuffer :
    ∃ t, exec .reset (holding [0xAA, 0x55]) = .next t := ⟨_, rfl⟩

theorem witness_IncompleteCandidateHoldsTheLine :
    (holding [0xAA]).rxbuf ++ (0x55 :: List.replicate 34 0x00)
      = 0xAA#8 :: 0x55#8 :: List.replicate 34 0x00 ∧
    (List.replicate 34 (0x00 : Byte)).length + 2 < 37 ∧
    (holding [0x7F]).rxbuf ++ [0x00, 0x01] = 0x7F :: [0x00, 0x01] ∧ (0x7F : Byte).toNat < 128 ∧
    ([0x00, 0x01] : List Byte).length + 1 < 4 := by decide

theorem witness_ZeroRunsYieldZeroFrames : State.reset.rxbuf = [] := rfl

theorem witness_ResyncPastUnrecognisedBytes :
    State.reset.rxbuf = [] ∧ (∀ b ∈ ([0x80, 0xFF, 0xAB, 0xC3] : List Byte), 128 ≤ b.toNat ∧ b ≠ 0xAA#8) ∧
    (0x01 : Byte).toNat < 128 := by decide

theorem witness_LoopedReadRequestLosesItsHeader :
    State.reset.rxbuf = [] ∧ (0x10 : Int) % 128 ≠ 0x2A := by decide

theorem witness_LoopedWriteRequestReturnsItsValue :
    State.reset.rxbuf = [] ∧ (-32768 : Int) ≤ -500 ∧ (-500 : Int) ≤ 32767 := by decide

theorem witness_TelemetryFieldsAreLittleEndian : s7.length = 37 := by decide

theorem witness_ViewsReportWrongLength : s7Body.length ≠ 37 ∧ ([] : List Byte).length ≠ 4 := by decide

theorem witness_OnlyTheDecUnitTouchesTheBuffer :
    Instr.crc8 [0x01] ∈ [Instr.crc8 [0x01], .encode 1 true 2, .encWr 1 2, .encRd 1 2,
      .cmdWr 0x01 0x0C 0xFE 0x63, .cmdRd 0x01 0x0C 0x63, .tlmDecode [0x01], .rspDecode [0x01]] ∧
    ∃ t, exec (.crc8 [0x01]) (holding [0xAA]) = .next t := ⟨.head _, _, rfl⟩

theorem witness_BufferIsTheOnlyState :
    (holding [0xAA]).rxbuf = ({ holding [0xAA] with result := some (.byte 0x01) } : State).rxbuf ∧
    (∃ t, exec .tWait1 (holding [0xAA]) = .next t) ∧
    ∃ r, exec .pEmpty (holding [0xAA]) = .refused r := ⟨rfl, ⟨_, rfl⟩, _, rfl⟩

theorem witness_EncodeCommutesWithInbound :
    Instr.feed [0x01] = .reset ∨ ∃ bs, Instr.feed [0x01] = .feed bs := .inr ⟨_, rfl⟩

end Sys2Proof.Tests
end

namespace Sys2Proof.Machine

open Sys2Proof.Config

/-! Proofs about `10_state.md`: what quiescence means for a buffer, what the loop of `FEED` keeps, and what
an instruction may read and change.

### The decision, one branch at a time (R81) -/

theorem decideAction_of_bit7Clear {b : Byte} (h : bit7Clear b = true) (B : List Byte) :
    decideAction (b :: B) = responseBranch (b :: B) :=
  decideAction_of_rspLead (x := leadBits b) (by rw [rspLead_leadBits b h]; rfl)

theorem decideAction_of_unrecognised {b : Byte} (h0 : b ≠ MAGIC0) (h7 : ¬ bit7Clear b = true)
    (B : List Byte) : decideAction (b :: B) = .dropOne := by
  simp [decideAction, h0, h7]

theorem telemetryBranch_eq_stop_iff (B : List Byte) :
    telemetryBranch B = .stop ↔ B.length < 2 ∨ B[1]? = some MAGIC1 ∧ B.length < TLM_LEN := by
  simp only [telemetryBranch]
  repeat' split
  all_goals simp_all

theorem responseBranch_eq_stop_iff (B : List Byte) :
    responseBranch B = .stop ↔ B.length < CMD_LEN := by
  simp only [responseBranch]
  repeat' split
  all_goals simp_all

/-! ### Quiescent buffers (R19, R20) -/

theorem QuiescentShape.quiescent {B : List Byte} (h : QuiescentShape B) : Quiescent B := by
  cases h with
  | empty => rfl
  | magic0 => rfl
  | telemetry rest short =>
    rw [Quiescent, decideAction_of_magic0 rfl, telemetryBranch_eq_stop_iff]
    exact .inr ⟨rfl, by simp only [List.length_cons, TLM_LEN]; omega⟩
  | response b rest clear short =>
    rw [Quiescent, decideAction_of_bit7Clear ((bit7Clear_iff b).mpr clear), responseBranch_eq_stop_iff]
    simp only [List.length_cons, CMD_LEN]; omega

theorem QuiescentShape.of_quiescent {B : List Byte} (h : Quiescent B) : QuiescentShape B := by
  match B with
  | [] => exact .empty
  | b :: rest =>
    by_cases h0 : b = MAGIC0
    · subst h0
      rw [Quiescent, decideAction_of_magic0 rfl, telemetryBranch_eq_stop_iff] at h
      match rest with
      | [] => exact .magic0
      | c :: more =>
        obtain hl | ⟨hc, hl⟩ := h
        · simp at hl
        · obtain rfl : c = MAGIC1 := by simpa using hc
          exact .telemetry more (by simp only [List.length_cons, TLM_LEN] at hl; omega)
    · by_cases h7 : bit7Clear b = true
      · rw [Quiescent, decideAction_of_bit7Clear h7, responseBranch_eq_stop_iff, List.length_cons] at h
        exact .response b rest ((bit7Clear_iff b).mp h7) (by simp only [CMD_LEN] at h; omega)
      · rw [Quiescent, decideAction_of_unrecognised h0 h7] at h
        cases h

theorem quiescent_iff_shape (B : List Byte) : Quiescent B ↔ QuiescentShape B :=
  ⟨.of_quiescent, QuiescentShape.quiescent⟩

theorem length_le_of_quiescent {B : List Byte} (h : Quiescent B) : B.length ≤ 36 := by
  cases QuiescentShape.of_quiescent h <;> simp only [List.length_cons, List.length_nil] <;> omega

/-! ### One iteration (R82 to R91) -/

/-- The decoder names a case whose own rule selects the buffer (R81). -/
theorem selects_decodeHead (B : List Byte) : selects B (decodeHead B) = true := by
  match B with
  | [] => rfl
  | b :: rest =>
    by_cases h0 : b = MAGIC0
    · subst h0
      cases rest with
      | nil => rfl
      | cons c more =>
        simp only [decodeHead]
        repeat' split
        all_goals simp_all [selects, selTFalse, selTWait, selTEmit, selTBad, magicHead]
    · by_cases h7 : bit7Clear b = true
      · simp only [decodeHead, h0, h7]
        repeat' split
        all_goals simp_all [selects, selRWait, selREmit, selRBad, rspLead_leadBits]
      · rw [Bool.not_eq_true] at h7
        simp [decodeHead, h0, h7, selects, selUDrop, unkLead_leadBits]

/-- The iteration case at the parse position completes, with `Decide`'s action (R15, R81). -/
theorem exec_decodeHead (s : State) :
    exec (decodeHead s.rxbuf) s = .next (s.perform (decideAction s.rxbuf)) := by
  have hsel := selects_decodeHead s.rxbuf
  rw [exec_iteration (caseAction_of_selects hsel), whenSelected_eq_next_iff]
  exact ⟨hsel, rfl⟩

theorem consumed_cases (act : Action) :
    act.consumed = 0 ∨ act.consumed = 1 ∨ act.consumed = 4 ∨ act.consumed = 37 := by
  cases act <;> simp [Action.consumed]

/-- What an action emits is what it removes (R86, R89). -/
theorem emitted_cases (B : List Byte) (act : Action) :
    act.emitted B = [] ∨ ∃ f, act.emitted B = [f] ∧ f.bytes = B.take act.consumed := by
  cases act with
  | stop => exact .inl rfl
  | dropOne => exact .inl rfl
  | emitRsp => exact .inr ⟨_, rfl, rfl⟩
  | emitTlm => exact .inr ⟨_, rfl, rfl⟩

theorem length_take_consumed (B : List Byte) :
    (B.take (decideAction B).consumed).length = (decideAction B).consumed :=
  List.length_take_of_le (consumed_le_length B)

theorem take_consumed_eq_nil_iff (B : List Byte) :
    B.take (decideAction B).consumed = [] ↔ Quiescent B := by
  rw [← List.length_eq_zero_iff, length_take_consumed, consumed_eq_zero_iff]

/-- A frame that the decision emits has its length, its lead, its tag and its CRC (R95). -/
theorem frameOk_of_mem_emitted {B : List Byte} {f : TaggedFrame}
    (hf : f ∈ (decideAction B).emitted B) : FrameOk f := by
  cases hd : decideAction B with
  | stop => simp [hd, Action.emitted] at hf
  | dropOne => simp [hd, Action.emitted] at hf
  | emitRsp =>
    obtain ⟨⟨b, hb, h7⟩, hlen, hcrc⟩ := decideAction_eq_emitRsp hd
    obtain rfl : f = ⟨.RSP, B.take 4⟩ := by simpa [hd, Action.emitted] using hf
    exact ⟨(headCrcOk_iff B 3 hlen).mp hcrc,
      .inl ⟨rfl, List.length_take_of_le hlen, b, by simpa using hb, (bit7Clear_iff b).mp h7⟩⟩
  | emitTlm =>
    obtain ⟨hmagic, hlen, hcrc⟩ := decideAction_eq_emitTlm hd
    obtain rfl : f = ⟨.TLM, B.take 37⟩ := by simpa [hd, Action.emitted] using hf
    obtain ⟨h0, h1⟩ : B[0]? = some MAGIC0 ∧ B[1]? = some MAGIC1 := by simpa [magicHead] using hmagic
    exact ⟨(headCrcOk_iff B 36 hlen).mp hcrc,
      .inr ⟨rfl, List.length_take_of_le hlen, (List.getElem?_take_of_lt (by decide)).trans h0,
        (List.getElem?_take_of_lt (by decide)).trans h1⟩⟩

/-! ### The whole loop (R80) -/

/-- The loop ends only where the decision stops (R93). -/
theorem quiescent_parse (B : List Byte) : Quiescent (parse B).2 := by
  induction B using parse_induction with
  | stop B h => rwa [parse_of_stop h]
  | retry B h ih => rwa [parse_of_ne_stop h]

theorem frameOk_of_mem_parse (B : List Byte) : ∀ f ∈ (parse B).1, FrameOk f := by
  induction B using parse_induction with
  | stop B h => simp [parse_of_stop h]
  | retry B h ih =>
    intro f hf
    rw [parse_of_ne_stop h] at hf
    exact (List.mem_append.mp hf).elim frameOk_of_mem_emitted (ih f)

/-- One action takes its bytes from the head as pieces: those it drops, and the frame it emits. -/
theorem exists_pieces_of_action (B : List Byte) (act : Action) : ∃ ps : List Piece,
    ps.filterMap Piece.frame? = act.emitted B ∧ ps.flatMap Piece.bytes = B.take act.consumed := by
  cases act with
  | stop => exact ⟨[], rfl, rfl⟩
  | dropOne => cases B with
    | nil => exact ⟨[], rfl, rfl⟩
    | cons b B => exact ⟨[.dropped b], rfl, rfl⟩
  | emitRsp => exact ⟨[.frame ⟨.RSP, B.take CMD_LEN⟩], rfl, List.append_nil _⟩
  | emitTlm => exact ⟨[.frame ⟨.TLM, B.take TLM_LEN⟩], rfl, List.append_nil _⟩

/-- The loop cuts its buffer, in order, into pieces and the rest: no byte is lost (R10, R92). -/
theorem exists_pieces_of_parse (B : List Byte) : ∃ ps : List Piece,
    ps.filterMap Piece.frame? = (parse B).1 ∧ B = ps.flatMap Piece.bytes ++ (parse B).2 := by
  induction B using parse_induction with
  | stop B h => exact ⟨[], by simp [parse_of_stop h]⟩
  | retry B h ih =>
    obtain ⟨ps, hframes, hbytes⟩ := exists_pieces_of_action B (decideAction B)
    obtain ⟨qs, ihframes, ihbytes⟩ := ih
    refine ⟨ps ++ qs, ?_, ?_⟩
    · rw [parse_of_ne_stop h, List.filterMap_append, hframes, ihframes]
    · rw [parse_of_ne_stop h, List.flatMap_append, hbytes, List.append_assoc, ← ihbytes,
        List.take_append_drop]

/-! ### Bytes that arrive later (R21) -/

theorem headCrcOk_append {A : List Byte} {n : Nat} (h : n < A.length) (C : List Byte) :
    headCrcOk (A ++ C) n = headCrcOk A n := by
  simp only [headCrcOk, List.getElem?_append_left h, List.take_append_of_le_length h.le]

theorem telemetryBranch_append {A : List Byte} (h : telemetryBranch A ≠ .stop) (C : List Byte) :
    telemetryBranch (A ++ C) = telemetryBranch A := by
  rw [Ne, telemetryBranch_eq_stop_iff, not_or, not_and] at h
  obtain ⟨h2, hfull⟩ := h
  have h1 : (A ++ C)[1]? = A[1]? := List.getElem?_append_left (by omega)
  have h2' : ¬ (A ++ C).length < 2 := by rw [List.length_append]; omega
  by_cases hm : A[1]? = some MAGIC1
  · have h37 : ¬ A.length < TLM_LEN := hfull hm
    have h37' : ¬ (A ++ C).length < TLM_LEN := by rw [List.length_append]; omega
    have hcrc := headCrcOk_append (n := 36) (not_lt.mp h37) C
    simp only [telemetryBranch, h1, h2, h2', h37, h37', hcrc]
  · simp only [telemetryBranch, h1, h2, h2', hm, ne_eq, not_false_eq_true, if_true, if_false]

theorem responseBranch_append {A : List Byte} (h : responseBranch A ≠ .stop) (C : List Byte) :
    responseBranch (A ++ C) = responseBranch A := by
  rw [Ne, responseBranch_eq_stop_iff] at h
  have h' : ¬ (A ++ C).length < CMD_LEN := by rw [List.length_append]; omega
  simp only [responseBranch, h, h', headCrcOk_append (n := 3) (not_lt.mp h) C]

/-- Where the decision does not wait, later bytes do not change it. -/
theorem decideAction_append {A : List Byte} (h : decideAction A ≠ .stop) (C : List Byte) :
    decideAction (A ++ C) = decideAction A := by
  match A with
  | [] => exact absurd rfl h
  | b :: A =>
    by_cases h0 : b = MAGIC0
    · subst h0
      rw [decideAction_of_magic0 rfl] at h ⊢
      exact (decideAction_of_magic0 rfl).trans (telemetryBranch_append h C)
    · by_cases h7 : bit7Clear b = true
      · rw [decideAction_of_bit7Clear h7] at h ⊢
        exact (decideAction_of_bit7Clear h7 _).trans (responseBranch_append h C)
      · rw [List.cons_append, decideAction_of_unrecognised h0 h7, decideAction_of_unrecognised h0 h7]

theorem emitted_append {A : List Byte} {act : Action} (h : act.consumed ≤ A.length) (C : List Byte) :
    act.emitted (A ++ C) = act.emitted A := by
  cases act with
  | stop => rfl
  | dropOne => rfl
  | emitRsp => exact congrArg (fun bs => [TaggedFrame.mk .RSP bs]) (List.take_append_of_le_length h)
  | emitTlm => exact congrArg (fun bs => [TaggedFrame.mk .TLM bs]) (List.take_append_of_le_length h)

/-- Parsing what was there first and then the rest with the new bytes gives what parsing all at once
gives (R37). -/
theorem parse_append (A C : List Byte) :
    parse (A ++ C) =
      ((parse A).1 ++ (parse ((parse A).2 ++ C)).1, (parse ((parse A).2 ++ C)).2) := by
  induction A using parse_induction with
  | stop A h => simp [parse_of_stop h]
  | retry A h ih =>
    have hle := consumed_le_length A
    have hd := decideAction_append h C
    rw [parse_of_ne_stop (hd ▸ h), hd, emitted_append hle, List.drop_append_of_le_length hle, ih,
      parse_of_ne_stop h, List.append_assoc]

/-- A session from a quiescent buffer is one parse of the whole stream. -/
theorem FeedSeq.parse_eq {cs : List (List Byte)} {s t : State} {fs : List TaggedFrame}
    (h : FeedSeq cs s fs t) (hq : Quiescent s.rxbuf) : parse (s.rxbuf ++ cs.flatten) = (fs, t.rxbuf) := by
  induction h with
  | done s => simp [parse_of_stop hq]
  | @feed c cs s t u fs gs ran returned rest ih =>
    obtain rfl : feedBytes c s = t := by cases ran; rfl
    obtain rfl : (parse (s.rxbuf ++ c)).1 = fs := by simpa using returned
    have ih := ih (quiescent_parse (s.rxbuf ++ c))
    rw [feedBytes_rxbuf] at ih
    rw [List.flatten_cons, ← List.append_assoc, parse_append, ih]

/-! ### The invariant -/

theorem Inv.of_quiescent {s : State} (hq : Quiescent s.rxbuf) (hr : ResultOk s.result) : Inv s :=
  ⟨hq, length_le_of_quiescent hq, hr⟩

theorem Inv.taken {s : State} (h : Inv s) : Inv s.taken := .of_quiescent h.quiescent h.result

/-- Whatever an instruction does to a state, it keeps the invariant. -/
theorem Effect.inv {s t : State} (h : Effect s t) (hs : Inv s) : Inv t := by
  cases h with
  | returned r ok => exact .of_quiescent hs.quiescent ok
  | fed bs => exact .of_quiescent (quiescent_parse _) (frameOk_of_mem_parse _)
  | iterated =>
    refine .of_quiescent ?_ fun f hf => frameOk_of_mem_emitted hf
    rw [State.perform_rxbuf, hs.quiescent]
    exact hs.quiescent
  | cleared => exact .of_quiescent rfl trivial

/-! ### A step -/

theorem step_of_decode_fetch {s : State} {i : Instr} (h : decode s.fetch = .ok i) :
    step s = exec i s.taken := by
  simp only [step, h]

theorem step_of_reject_fetch {s : State} {r : Reject} (h : decode s.fetch = .error r) :
    step s = .refused (.undecodable r) := by
  simp only [step, h]

theorem State.fetch_of_port_cons {s : State} {t : Transaction} {rest : List Transaction}
    (h : s.port = t :: rest) : s.fetch = t := by
  simp [State.fetch, h]

theorem State.fetch_of_port_nil {s : State} (h : s.port = []) : s.fetch = .iteration s.rxbuf := by
  simp [State.fetch, h]

theorem State.taken_of_port_nil {s : State} (h : s.port = []) : s.taken = s := by
  cases s; cases h; rfl

theorem State.taken_of_port_cons {s : State} {t : Transaction} {rest : List Transaction}
    (h : s.port = t :: rest) : s.taken = { s with port := rest } := by
  simp [State.taken, h]

/-- A step that answers a next state has run an instruction. -/
theorem exists_exec_of_step {s t : State} (h : step s = .next t) : ∃ i, exec i s.taken = .next t := by
  cases hd : decode s.fetch with
  | ok i => exact ⟨i, (step_of_decode_fetch hd).symm.trans h⟩
  | error r =>
    rw [step_of_reject_fetch hd] at h
    cases h

theorem step_keeps_inv {s t : State} (hs : Inv s) (h : step s = .next t) : Inv t := by
  obtain ⟨i, hi⟩ := exists_exec_of_step h
  exact (exec_effect hi).inv hs.taken

/-! ### What an instruction may change (R11, R34) -/

/-- The instructions that belong to no unit with a state: those of the CRC and ENC units, the outbound
frames and the views (R31). -/
def Stateless : Instr → Prop
  | .crc8 _ | .encode _ _ _ | .encWr _ _ | .encRd _ _ | .cmdWr _ _ _ _ | .cmdRd _ _ _
  | .tlmDecode _ | .rspDecode _ => True
  | _ => False

/-- A stateless instruction leaves a result and nothing else. -/
theorem Stateless.exec_eq_next {i : Instr} (hi : Stateless i) {s t : State}
    (h : exec i s = .next t) : ∃ r, t = s.returning r := by
  cases i with
  | crc8 | encode | encWr | encRd => cases h; exact ⟨_, rfl⟩
  | cmdWr | cmdRd => exact ⟨_, ((sendFrame_eq_next_iff _ _ _).mp h).2⟩
  | tlmDecode f =>
    simp only [exec, execTlmDecode] at h
    split at h <;> cases h <;> exact ⟨_, rfl⟩
  | rspDecode f =>
    simp only [exec, execRspDecode] at h
    split at h <;> cases h <;> exact ⟨_, rfl⟩
  | feed | reset | opReserved6 | opReserved7 | rsp | tlm | leadTlm | leadRsp | leadUnk | pEmpty
  | tWait1 | tFalse | tWait | tEmit | tBad | rWait | rEmit | rBad | uDrop => exact hi.elim

/-! ### What an instruction may read (R14, R16, R18) -/

/-- The same end of a step, seen from surroundings that have `p` still to submit. -/
def withPort (p : List Transaction) : StepOutcome → StepOutcome
  | .next t => .next { t with port := p }
  | .fault r => .fault r
  | .refused r => .refused r

theorem returning_eq_of_rxbuf {s s' : State} (h : s.rxbuf = s'.rxbuf) (r : Result) :
    s'.returning r = { s.returning r with port := s'.port } := by
  simp only [State.returning, h]

theorem feedBytes_eq_of_rxbuf {s s' : State} (h : s.rxbuf = s'.rxbuf) (bs : List Byte) :
    feedBytes bs s' = { feedBytes bs s with port := s'.port } := by
  simp only [feedBytes, State.append, h]

theorem whenSelected_eq_of_rxbuf {s s' : State} (h : s.rxbuf = s'.rxbuf) (sel : Bool) (act : Action) :
    whenSelected sel act s' = withPort s'.port (whenSelected sel act s) := by
  cases sel with
  | false => rfl
  | true => simp [whenSelected, withPort, State.perform, State.returning, State.dropHead, h]

theorem sendFrame_eq_of_rxbuf {s s' : State} (h : s.rxbuf = s'.rxbuf) (f : List Byte) :
    sendFrame f s' = withPort s'.port (sendFrame f s) := by
  cases hv : frameValid f with
  | false => simp [sendFrame, hv, withPort]
  | true => simp [sendFrame, hv, withPort, returning_eq_of_rxbuf h]

/-- `RXBUF` and the operands determine how an instruction ends. -/
theorem exec_eq_of_rxbuf {s s' : State} (h : s.rxbuf = s'.rxbuf) (i : Instr) :
    exec i s' = withPort s'.port (exec i s) := by
  obtain ⟨B, p, r⟩ := s
  obtain ⟨B', p', r'⟩ := s'
  have hB : B = B' := h
  subst hB
  cases i with
  | crc8 | encode | encWr | encRd => exact congrArg Host.Outcome.next (returning_eq_of_rxbuf h _)
  | tlmDecode f =>
    simp only [exec, execTlmDecode]
    split <;> exact congrArg Host.Outcome.next (returning_eq_of_rxbuf h _)
  | rspDecode f =>
    simp only [exec, execRspDecode]
    split <;> exact congrArg Host.Outcome.next (returning_eq_of_rxbuf h _)
  | cmdWr | cmdRd => exact sendFrame_eq_of_rxbuf h _
  | feed | rsp | tlm => exact congrArg Host.Outcome.next (feedBytes_eq_of_rxbuf h _)
  | reset | opReserved6 | opReserved7 => rfl
  | leadUnk | pEmpty | tWait1 | tFalse | tWait | tEmit | tBad | rWait | rEmit | rBad | uDrop
  | leadTlm | leadRsp =>
    exact whenSelected_eq_of_rxbuf h _ _

end Sys2Proof.Machine

namespace Sys2Proof.Proofs

open Sys2Proof.Config Sys2Proof.Machine

/-! ### The obligations of `10_state.md` -/

/-- Settles O32: a step runs one instruction, and each of its four possible effects keeps the invariant. -/
theorem everyStepKeepsTheBufferQuiescent : Obligations.EveryStepKeepsTheBufferQuiescent :=
  fun _ _ hs h => step_keeps_inv hs h

/-- Settles O26, by the cut of the loop's buffer into pieces. -/
theorem feedCutsTheStreamInOrder : Obligations.FeedCutsTheStreamInOrder := by
  intro newBytes s
  obtain ⟨ps, hframes, hbytes⟩ := exists_pieces_of_parse (s.rxbuf ++ newBytes)
  refine ⟨ps, (parse (s.rxbuf ++ newBytes)).2, ?_, hbytes, quiescent_parse _⟩
  rw [hframes]
  rfl

/-- Settles O29: both sessions are the parse of the same stream. -/
theorem sessionDependsOnlyOnTheStream : Obligations.SessionDependsOnlyOnTheStream := by
  intro cs ds s t u fs gs hq hstream hcs hds
  have heq : (fs, t.rxbuf) = (gs, u.rxbuf) := by
    rw [← hcs.parse_eq hq, ← hds.parse_eq hq, hstream]
  exact Prod.mk.inj heq

/-- Settles O31. -/
theorem quiescentBuffersHaveFourShapes : Obligations.QuiescentBuffersHaveFourShapes :=
  fun B => ⟨quiescent_iff_shape B, length_le_of_quiescent⟩

/-- Settles O35, by the bound on quiescent buffers before and after the loop. -/
theorem bufferPeakIsBounded : Obligations.BufferPeakIsBounded := by
  intro s t newBytes hq h
  obtain rfl : feedBytes newBytes s = t := by cases h; rfl
  refine ⟨?_, length_le_of_quiescent (quiescent_parse _)⟩
  rw [State.append_rxbuf, List.length_append]
  exact Nat.add_le_add_right (length_le_of_quiescent hq) _

/-- Settles O36: the selected case performs `Decide`'s action, and the bytes gone are those it consumes. -/
theorem iterationAdvancesTheParsePosition : Obligations.IterationAdvancesTheParsePosition := by
  intro s
  refine ⟨_, s.rxbuf.take (decideAction s.rxbuf).consumed, _, exec_decodeHead s, rfl,
    (List.take_append_drop _ _).symm, ?_, take_consumed_eq_nil_iff s.rxbuf, emitted_cases _ _⟩
  rw [length_take_consumed]
  exact consumed_cases _

/-- Settles O51: each of the eight forms is stateless, so it changes the result alone. -/
theorem onlyTheDecUnitTouchesTheBuffer : Obligations.OnlyTheDecUnitTouchesTheBuffer := by
  intro s t bytes register value isRead r l h c i hi hexec
  have hstateless : Stateless i := by
    simp only [List.mem_cons, List.not_mem_nil, or_false] at hi
    obtain rfl | rfl | rfl | rfl | rfl | rfl | rfl | rfl := hi <;> trivial
  obtain ⟨res, rfl⟩ := hstateless.exec_eq_next hexec
  exact ⟨rfl, rfl, rfl, fun _ _ => rfl⟩

/-- Settles O52: the instruction's end in the second state is its end in the first, port aside. -/
theorem bufferIsTheOnlyState : Obligations.BufferIsTheOnlyState := by
  intro i s s' h
  constructor
  · intro t ht
    rw [exec_eq_of_rxbuf h, ht]
    rfl
  · intro r hr
    rw [exec_eq_of_rxbuf h, hr]
    rfl

/-- Settles O5, by what the port gives the fetch. -/
theorem stepRunsDecodedInstruction : Obligations.StepRunsDecodedInstruction := by
  intro s
  refine ⟨fun t rest i hport hdec => ?_, fun hport => ?_, fun t rest r hport hdec => ?_⟩
  · rw [step_of_decode_fetch ((State.fetch_of_port_cons hport).symm ▸ hdec),
      State.taken_of_port_cons hport]
  · rw [step_of_decode_fetch (i := decodeHead s.rxbuf) (by rw [State.fetch_of_port_nil hport]; rfl),
      State.taken_of_port_nil hport]
  · exact step_of_reject_fetch ((State.fetch_of_port_cons hport).symm ▸ hdec)

/-- Settles O33: the empty buffer is quiescent. -/
theorem resetStateIsQuiescent : Obligations.ResetStateIsQuiescent :=
  ⟨.of_quiescent decideAction_nil trivial, rfl⟩

end Sys2Proof.Proofs

namespace Sys2Proof.Machine

open Sys2Proof.Config

/-! Proofs about `20_memory.md`: the index spaces, which bytes an instruction is read from, and in what
order bytes may arrive.

### Bytes and fields by index (R26, R41, R44) -/

theorem getElem?_eq_some_byteAt {f : List Byte} {k : Nat} (h : k < f.length) :
    f[k]? = some (byteAt f k) := by
  simp [byteAt, h]

/-- A frame is its bytes in index order. -/
theorem map_byteAt_range {f : List Byte} {n : Nat} (h : f.length = n) :
    (List.range n).map (byteAt f) = f := by
  subst h
  exact List.ext_getElem (by simp) fun k _ hk => by simp [byteAt, hk]

theorem leSplit_u32At (f : List Byte) (k : Nat) :
    leSplit (u32At f k) = [byteAt f k, byteAt f (k + 1), byteAt f (k + 2), byteAt f (k + 3)] :=
  leSplit_leJoin _ _ _ _

theorem byteAt_of_magicHead {f : List Byte} (h : magicHead f = true) :
    MAGIC0 = byteAt f 0 ∧ MAGIC1 = byteAt f 1 := by
  obtain ⟨h0, h1⟩ : f[0]? = some MAGIC0 ∧ f[1]? = some MAGIC1 := by simpa [magicHead] using h
  simp [byteAt, h0, h1]

/-- A 32-bit field inside a frame is the little-endian number of its four bytes (R26). -/
theorem u32At_littleEndian {f : List Byte} {k : Nat} (h : k + 3 < f.length) :
    ∃ b0 b1 b2 b3 : Byte, f[k]? = some b0 ∧ f[k + 1]? = some b1 ∧ f[k + 2]? = some b2 ∧
      f[k + 3]? = some b3 ∧
      (u32At f k).toNat = b0.toNat + 2 ^ 8 * b1.toNat + 2 ^ 16 * b2.toNat + 2 ^ 24 * b3.toNat :=
  ⟨_, _, _, _, getElem?_eq_some_byteAt (by omega), getElem?_eq_some_byteAt (by omega),
    getElem?_eq_some_byteAt (by omega), getElem?_eq_some_byteAt h, toNat_leJoin _ _ _ _⟩

/-! ### What the decoder reads is what stands there -/

/-- Four bytes with bit 7 of the first clear are laid out again from their fields (R41). -/
theorem frame4_of_fields {f : List Byte} (hlen : f.length = 4)
    (h7 : bit7Clear (byteAt f 0) = true) :
    frame4 (rspLead (leadBits (byteAt f 0))) (byteAt f 1) (byteAt f 2) (byteAt f 3) = f := by
  rw [rspLead_leadBits _ h7]
  exact map_byteAt_range hlen

/-- 37 bytes behind the magic are laid out again from their fields (R44). -/
theorem encode_decodeTlm {f : List Byte} (hlen : f.length = 37) (hmagic : magicHead f = true) :
    encode (decodeTlm f) = .inbound f := by
  obtain ⟨h0, h1⟩ := byteAt_of_magicHead hmagic
  simp only [decodeTlm, encode, frame37, leSplit_u32At, h0, h1]
  exact congrArg Transaction.inbound (map_byteAt_range hlen)

theorem encode_decodeInbound (f : List Byte) :
    encode (decodeInbound f) = .inbound f ∨ decodeInbound f = .feed f := by
  simp only [decodeInbound]
  split
  next h => exact .inl (congrArg _ (frame4_of_fields h.1 h.2))
  next =>
    split
    next h => exact .inl (encode_decodeTlm h.1 h.2)
    next => exact .inr rfl

theorem encode_of_decodeOutbound {f : List Byte} {i : Instr} (h : decodeOutbound f = .ok i) :
    encode i = .outbound f := by
  unfold decodeOutbound at h
  split at h
  next hdr dlo dhi crc =>
    split at h
    next h7 =>
      cases h
      simp [encode, frame4, rspLead_leadBits _ h7]
    next h7 =>
      split at h
      next hz =>
        cases h
        simp [encode, frame4, unkLead_leadBits _ (Bool.eq_false_of_not_eq_true h7), hz]
      next => cases h
  next => cases h

theorem encode_decodeLead (b : Byte) : encode (decodeLead b) = .lead b := by
  simp only [decodeLead]
  split
  next h0 => exact congrArg _ h0.symm
  next =>
    split
    next h7 => exact congrArg _ (rspLead_leadBits b h7)
    next h7 => exact congrArg _ (unkLead_leadBits b (Bool.eq_false_of_not_eq_true h7))

/-! ### `FEED` (R25, R32, R37, R80) -/

theorem exec_feed (bs : List Byte) (s : State) : exec (.feed bs) s = .next (feedBytes bs s) := rfl

/-- An instruction that is encoded as inbound bytes is the `FEED` of them. -/
theorem exec_eq_exec_feed_of_encode {i : Instr} {f : List Byte} (h : encode i = .inbound f)
    (s : State) : exec i s = exec (.feed f) s := by
  cases i with
  | rsp | tlm => cases h; rfl
  | crc8 | encode | encWr | encRd | feed | reset | tlmDecode | rspDecode | opReserved6 | opReserved7
  | cmdWr | cmdRd | leadTlm | leadRsp | leadUnk | pEmpty | tWait1 | tFalse | tWait | tEmit | tBad
  | rWait | rEmit | rBad | uDrop => cases h

theorem exec_decodeInbound (f : List Byte) (s : State) :
    exec (decodeInbound f) s = exec (.feed f) s := by
  obtain h | h := encode_decodeInbound f
  · exact exec_eq_exec_feed_of_encode h s
  · rw [h]

/-- Two `FEED`s leave what one leaves, the frames of both joined. -/
theorem feedBytes_append (a b : List Byte) (s : State) :
    feedBytes (a ++ b) s = { feedBytes b (feedBytes a s) with
      result := some (.frames
        ((parse (s.rxbuf ++ a)).1 ++ (parse ((feedBytes a s).rxbuf ++ b)).1)) } := by
  simp only [feedBytes, State.append, ← List.append_assoc, parse_append (s.rxbuf ++ a) b]

/-- The loop on a buffer is a run of iteration cases, at most one more than there are bytes (R94). -/
theorem exists_iterates_parse (s : State) : ∃ (n : Nat) (u : State),
    n ≤ s.rxbuf.length + 1 ∧ Iterates n s (parse s.rxbuf).1 u ∧
    u.rxbuf = (parse s.rxbuf).2 ∧ u.port = s.port := by
  induction hB : s.rxbuf using parse_induction generalizing s with
  | stop B h =>
    subst hB
    refine ⟨1, s.perform (decideAction s.rxbuf), by omega, ?_, ?_, rfl⟩
    · rw [parse_of_stop h]
      exact .stop h (exec_decodeHead s)
    · rw [parse_of_stop h, State.perform_rxbuf, h]
      rfl
  | retry B h ih =>
    subst hB
    obtain ⟨n, u, hn, hrun, hbuf, hport⟩ := ih (s.perform (decideAction s.rxbuf)) rfl
    have hlt := length_drop_lt h
    rw [parse_of_ne_stop h]
    exact ⟨n + 1, u, by omega, .retry h (exec_decodeHead s) rfl hrun, hbuf, hport⟩

/-! ### The checksum as a polynomial remainder (R60) -/

section Polynomial

open Polynomial

/-- The generator polynomial of R60. -/
noncomputable def crcGen : (ZMod 2)[X] := X ^ 8 + X ^ 2 + X + 1

/-- A byte as a polynomial over GF(2), bit `k` the coefficient of `x^k` (R60). -/
noncomputable def bytePoly (b : Byte) : (ZMod 2)[X] :=
  ∑ k ∈ Finset.range 8, if b.getLsbD k then X ^ k else 0

/-- A byte sequence as a polynomial, the first byte the most significant (R60). -/
noncomputable def messagePoly (bytes : List Byte) : (ZMod 2)[X] :=
  bytes.foldl (fun p b => p * X ^ 8 + bytePoly b) 0

theorem messagePoly_concat (s : List Byte) (b : Byte) :
    messagePoly (s ++ [b]) = messagePoly s * X ^ 8 + bytePoly b := by
  simp [messagePoly]

theorem degree_crcGen : crcGen.degree = 8 := by
  unfold crcGen
  compute_degree!

theorem monic_crcGen : crcGen.Monic := by
  unfold crcGen
  monicity!

theorem degree_bytePoly_lt (b : Byte) : (bytePoly b).degree < crcGen.degree := by
  rw [degree_crcGen]
  refine Polynomial.mem_degreeLT.mp (Submodule.sum_mem _ fun k hk => ?_)
  split
  · rw [Polynomial.mem_degreeLT, Polynomial.degree_X_pow]
    exact_mod_cast Finset.mem_range.mp hk
  · exact Submodule.zero_mem _

theorem bytePoly_xor (a b : Byte) : bytePoly (a ^^^ b) = bytePoly a + bytePoly b := by
  simp only [bytePoly, ← Finset.sum_add_distrib]
  refine Finset.sum_congr rfl fun k _ => ?_
  cases ha : a.getLsbD k <;> cases hb : b.getLsbD k <;> simp [ha, hb, CharTwo.add_self_eq_zero]

/-- Shifting left multiplies by `x`, but for the bit that leaves the byte. -/
theorem bytePoly_shiftLeft (a : Byte) :
    bytePoly a * X = bytePoly (a <<< 1) + if a.msb then X ^ 8 else 0 := by
  have hmsb : a.msb = a.getLsbD 7 := BitVec.msb_eq_getLsbD_last a
  have hshift : bytePoly (a <<< 1) = ∑ k ∈ Finset.range 7, (if a.getLsbD k then X ^ k else 0) * X := by
    rw [bytePoly, Finset.sum_range_succ']
    simp only [BitVec.getLsbD_shiftLeft, ite_mul, zero_mul, ← pow_succ]
    refine (add_eq_left.mpr (by simp)).trans (Finset.sum_congr rfl fun k hk => ?_)
    have hlt : k + 1 < 8 := Nat.succ_lt_succ (Finset.mem_range.mp hk)
    simp only [hlt, decide_true, Bool.true_and, Nat.not_lt.mpr (Nat.le_add_left 1 k), decide_false,
      Bool.not_false, Nat.add_sub_cancel]
  rw [hshift, hmsb, bytePoly, Finset.sum_range_succ, add_mul, Finset.sum_mul, ite_mul, zero_mul,
    ← pow_succ]

theorem bytePoly_crcPoly : bytePoly CRC_POLY = 1 + X + X ^ 2 := by
  simp [bytePoly, Finset.sum_range_succ, CRC_POLY]

/-- One shift of R61 multiplies by `x` modulo the generator. -/
theorem mk_bytePoly_crcShift (a : Byte) :
    AdjoinRoot.mk crcGen (bytePoly (crcShift a)) = AdjoinRoot.mk crcGen (bytePoly a * X) := by
  rw [AdjoinRoot.mk_eq_mk, bytePoly_shiftLeft, crcShift]
  split
  · have hdiff : bytePoly (a <<< 1) + (1 + X + X ^ 2 : (ZMod 2)[X]) - (bytePoly (a <<< 1) + X ^ 8)
        = crcGen - X ^ 8 - X ^ 8 := by
      unfold crcGen
      ring
    rw [bytePoly_xor, bytePoly_crcPoly, hdiff, sub_sub, CharTwo.add_self_eq_zero, sub_zero]
  · simp

theorem mk_bytePoly_crcShift_iterate (n : Nat) (a : Byte) :
    AdjoinRoot.mk crcGen (bytePoly (crcShift^[n] a)) = AdjoinRoot.mk crcGen (bytePoly a * X ^ n) := by
  induction n with
  | zero => simp
  | succ n ih =>
    rw [Function.iterate_succ_apply', mk_bytePoly_crcShift, map_mul, ih, ← map_mul, mul_assoc, pow_succ]

/-- The checksum is congruent to the message times `x^8`: absorbing a byte keeps the congruence. -/
theorem mk_bytePoly_crc8 (s : List Byte) :
    AdjoinRoot.mk crcGen (bytePoly (crc8 s)) = AdjoinRoot.mk crcGen (messagePoly s * X ^ 8) := by
  induction s using List.reverseRecOn with
  | nil => simp [bytePoly, messagePoly]
  | append_singleton s b ih =>
    rw [crc8_concat, crc8Step, mk_bytePoly_crcShift_iterate, bytePoly_xor, map_mul, map_add, ih,
      ← map_add, ← map_mul, messagePoly_concat]

theorem messagePoly_modByMonic (s : List Byte) :
    (messagePoly s * X ^ 8) %ₘ crcGen = bytePoly (crc8 s) := by
  have hdvd := AdjoinRoot.mk_eq_mk.mp (mk_bytePoly_crc8 s).symm
  rw [modByMonic_eq_of_dvd_sub monic_crcGen hdvd, modByMonic_eq_self_iff monic_crcGen]
  exact degree_bytePoly_lt _

end Polynomial

end Sys2Proof.Machine

namespace Sys2Proof.Proofs

open Sys2Proof.Config Sys2Proof.Machine

/-! ### The obligations of `20_memory.md` -/

/-- Settles O3: each of the three decoders reads fields that lay out the same bytes again. -/
theorem frameDecodingDropsNoBit : Obligations.FrameDecodingDropsNoBit := by
  refine fun i => ⟨fun f h => ?_, fun f h => encode_of_decodeOutbound h, fun b h => ?_⟩
  · cases h
    exact encode_decodeInbound f
  · cases h
    exact encode_decodeLead b

/-- Settles O9, by the congruence of the checksum and the message modulo the generator. -/
theorem crc8IsPolynomialRemainder : Obligations.Crc8IsPolynomialRemainder :=
  fun bytes _ => ⟨crc8 bytes, rfl, messagePoly_modByMonic bytes⟩

/-- Settles O27, by the run of iteration cases on the buffer after the append. -/
theorem feedIsTheRunOfIterations : Obligations.FeedIsTheRunOfIterations := by
  intro newBytes s
  obtain ⟨n, u, hn, hrun, hbuf, hport⟩ := exists_iterates_parse (s.append newBytes)
  refine ⟨n, _, u, hn, hrun, ?_⟩
  rw [hbuf, hport]
  rfl

/-- Settles O28: the loop goes on where it waited. -/
theorem chunkingDoesNotMatter : Obligations.ChunkingDoesNotMatter := fun a b s =>
  ⟨feedBytes a s, feedBytes b (feedBytes a s), _, _, rfl, rfl, rfl, rfl,
    congrArg Host.Outcome.next (feedBytes_append a b s)⟩

/-- Settles O47: every field is `u32At` at its index, and lies inside the frame. -/
theorem telemetryFieldsAreLittleEndian : Obligations.TelemetryFieldsAreLittleEndian := by
  intro f s hlen
  refine ⟨telemetryOf f, by simp [exec, execTlmDecode, hlen, State.returning], fun k v hkv => ?_⟩
  have hkv : (k, v) ∈ [4, 8, 12, 16, 20, 24, 28, 32].map fun j => (j, u32At f j) := hkv
  obtain ⟨j, hj, hjv⟩ := List.mem_map.mp hkv
  cases hjv
  have hle : ∀ j ∈ [4, 8, 12, 16, 20, 24, 28, 32], j ≤ 32 := by decide
  have := hle k hj
  exact u32At_littleEndian (by omega)

/-- Settles O55: what inbound bytes decode to runs as the `FEED` of them, which always completes. -/
theorem inboundBytesAreAlwaysFed : Obligations.InboundBytesAreAlwaysFed := by
  intro f s
  have hstep : step (s.withTransaction (.inbound f)) = exec (.feed f) s :=
    (step_withTransaction rfl s).trans (exec_decodeInbound f s)
  exact ⟨hstep, _, hstep.trans (exec_feed f s)⟩

/-- Settles O53: neither `FEED` nor `RESET` reads the result, which is all that `ENCODE` writes. -/
theorem encodeCommutesWithInbound : Obligations.EncodeCommutesWithInbound := by
  intro register value isRead i s hi
  refine ⟨encodeFrame register isRead value, ?_⟩
  obtain rfl | ⟨bs, rfl⟩ := hi
  · exact ⟨_, _, rfl, rfl, rfl, rfl, rfl⟩
  · exact ⟨_, _, rfl, rfl, rfl, rfl, rfl⟩

end Sys2Proof.Proofs

namespace Sys2Proof.Machine

open Sys2Proof.Config

/-! Proofs about `30_encoding.md`: the numbers of lead and header bytes, the frames that `ENCODE` builds,
and what the parser does with one whole frame.

### Lead bytes as numbers (R42, R46) -/

theorem toNat_rspLead (x : RegAddr) : (rspLead x).toNat = x.toNat := by
  revert x; decide

theorem toNat_unkLead (x : RegAddr) : (unkLead x).toNat = x.toNat + 128 := by
  revert x; decide

theorem rspLead_eq_of_toNat {x : RegAddr} {b : Byte} (h : x.toNat = b.toNat) : rspLead x = b :=
  BitVec.eq_of_toNat_eq ((toNat_rspLead x).trans h)

theorem unkLead_eq_of_toNat {x : RegAddr} {b : Byte} (h : x.toNat + 128 = b.toNat) : unkLead x = b :=
  BitVec.eq_of_toNat_eq ((toNat_unkLead x).trans h)

theorem exists_rspLead_eq {b : Byte} (h : b.toNat < 128) : ∃ x, x.toNat = b.toNat ∧ rspLead x = b := by
  have hb := rspLead_leadBits b ((bit7Clear_iff b).mpr h)
  exact ⟨leadBits b, by rw [← toNat_rspLead, hb], hb⟩

theorem exists_unkLead_eq {b : Byte} (h : 128 ≤ b.toNat) :
    ∃ x, x.toNat + 128 = b.toNat ∧ unkLead x = b := by
  have hb := unkLead_leadBits b (Bool.eq_false_of_not_eq_true (by rw [bit7Clear_iff]; omega))
  exact ⟨leadBits b, by rw [← toNat_unkLead, hb], hb⟩

/-- The one read request whose header is the telemetry lead: that of register `0x2A` (R51). -/
theorem unkLead_eq_magic0_iff (x : RegAddr) : unkLead x = MAGIC0 ↔ x.toNat = 0x2A := by
  revert x; decide

/-! ### The bytes that `ENCODE` assembles (R71 to R73) -/

theorem toNat_ofInt7 (r : Int) : ((BitVec.ofInt 7 r).toNat : Int) = r % 128 := by
  rw [BitVec.toNat_ofInt, Int.toNat_of_nonneg (Int.emod_nonneg _ (by decide))]
  rfl

theorem toNat_ofInt8 (v : Int) : ((BitVec.ofInt 8 v).toNat : Int) = v % 256 := by
  rw [BitVec.toNat_ofInt, Int.toNat_of_nonneg (Int.emod_nonneg _ (by decide))]
  rfl

theorem byte_eq_iff_toNat_cast (a b : Byte) : a = b ↔ (a.toNat : Int) = b.toNat := by
  rw [Nat.cast_inj, BitVec.toNat_inj]

/-- Masking the low seven bits of a register leaves its 7-bit address. -/
theorem ofInt8_and_regMask (r : Int) : BitVec.ofInt 8 r &&& REG_MASK = rspLead (BitVec.ofInt 7 r) := by
  have hmask : ∀ b : Byte, (b &&& REG_MASK).toNat = b.toNat % 128 := by decide
  have h7 := toNat_ofInt7 r
  have h8 := toNat_ofInt8 r
  apply BitVec.eq_of_toNat_eq
  rw [hmask, toNat_rspLead]
  omega

theorem headerByte_write (r : Int) : headerByte r false = rspLead (BitVec.ofInt 7 r) := by
  simp [headerByte, ofInt8_and_regMask]

theorem headerByte_read (r : Int) : headerByte r true = unkLead (BitVec.ofInt 7 r) := by
  simp [headerByte, ofInt8_and_regMask, unkLead, rspLead]

/-- A write request is laid out from a 7-bit address and the two bytes of its value (R41, R72). -/
theorem encodeFrame_write (r v : Int) :
    encodeFrame r false v = frame4 (rspLead (BitVec.ofInt 7 r)) (dataLow v) (dataHigh false v)
      (crc8 [rspLead (BitVec.ofInt 7 r), dataLow v, dataHigh false v]) := by
  simp only [encodeFrame, headerByte_write]

/-- A read request is laid out from a 7-bit address and its count (R41, R73). -/
theorem encodeFrame_read (r v : Int) :
    encodeFrame r true v = frame4 (unkLead (BitVec.ofInt 7 r)) (dataLow v) 0x00#8
      (crc8 [unkLead (BitVec.ofInt 7 r), dataLow v, 0x00#8]) := by
  simp only [encodeFrame, headerByte_read]
  rfl

theorem ofInt_toNat_regAddr (r : RegAddr) : BitVec.ofInt 7 r.toNat = r := by
  rw [BitVec.ofInt_natCast, BitVec.ofNat_toNat, BitVec.setWidth_eq]

theorem toNat_dataLow (v : Int) : ((dataLow v).toNat : Int) = v % 256 := toNat_ofInt8 v

theorem toNat_dataHigh_write (v : Int) : ((dataHigh false v).toNat : Int) = v / 256 % 256 := by
  rw [dataHigh, if_neg Bool.false_ne_true, toNat_ofInt8, Int.shiftRight_eq_div_pow]
  rfl

theorem dataLow_of_bytes (l h : Byte) : dataLow (l.toNat + 256 * h.toNat) = l := by
  have hl := l.isLt
  rw [byte_eq_iff_toNat_cast, toNat_dataLow]
  omega

theorem dataHigh_of_bytes (l h : Byte) : dataHigh false (l.toNat + 256 * h.toNat) = h := by
  have hl := l.isLt
  have hh := h.isLt
  rw [byte_eq_iff_toNat_cast, toNat_dataHigh_write]
  omega

/-- The two data bytes of a write request are its value modulo 65536 (R72, R106). -/
theorem leWord_write (v : Int) : (leWord (dataLow v) (dataHigh false v) : Int) = v % 65536 := by
  have hl := toNat_dataLow v
  have hh := toNat_dataHigh_write v
  simp only [leWord]
  omega

/-- Sign correction changes a number by a multiple of 65536 only (R106). -/
theorem sext16_emod (u : Nat) : sext16 u % 65536 = (u : Int) % 65536 := by
  simp only [sext16]
  split <;> omega

/-- The value that the response view reads from a write request (R72, R106). -/
def writtenValue (v : Int) : Int := sext16 (leWord (dataLow v) (dataHigh false v))

theorem writtenValue_bounds (v : Int) : -32768 ≤ writtenValue v ∧ writtenValue v ≤ 32767 :=
  sext16_bounds (leWord_lt _ _)

theorem writtenValue_emod (v : Int) : writtenValue v % 65536 = v % 65536 := by
  rw [writtenValue, sext16_emod, leWord_write, Int.emod_emod]

theorem writtenValue_of_fits {v : Int} (hlo : -32768 ≤ v) (hhi : v ≤ 32767) : writtenValue v = v := by
  have hbounds := writtenValue_bounds v
  have hmod := writtenValue_emod v
  omega

theorem responseOf_encodeFrame_write (r v : Int) :
    responseOf (encodeFrame r false v) = ⟨BitVec.ofInt 7 r, writtenValue v⟩ := by
  simp [encodeFrame_write, responseOf, frame4, byteAt, writtenValue]

/-- Four bytes are handed to the transport exactly where the last is the CRC of the others (R45, R77). -/
theorem sendFrame_frame4 (h l d c : Byte) (s : State) :
    sendFrame (frame4 h l d c) s =
      if c = crc8 [h, l, d] then .next (s.returning (.sent (frame4 h l d c)))
      else .refused .notAFrame := by
  simp only [sendFrame, frameValid_frame4]

/-! ### The checksum's residue (R68) -/

theorem crcShift_eq_zero_iff (a : Byte) : crcShift a = 0x00#8 ↔ a = 0x00#8 := by
  revert a; decide

theorem crcShift_iterate_eq_zero_iff (n : Nat) (a : Byte) : crcShift^[n] a = 0x00#8 ↔ a = 0x00#8 := by
  induction n with
  | zero => rfl
  | succ n ih => rw [Function.iterate_succ_apply', crcShift_eq_zero_iff, ih]

/-- A checksum becomes zero exactly by absorbing itself. -/
theorem crc8Step_eq_zero_iff (acc b : Byte) : crc8Step acc b = 0x00#8 ↔ acc = b := by
  rw [crc8Step, crcShift_iterate_eq_zero_iff]
  exact BitVec.xor_eq_zero_iff

theorem crc8_concat_eq_zero_iff (s : List Byte) (b : Byte) :
    crc8 (s ++ [b]) = 0x00#8 ↔ b = crc8 s := by
  rw [crc8_concat, crc8Step_eq_zero_iff, eq_comm]

theorem frameValid_concat (s : List Byte) (b : Byte) : frameValid (s ++ [b]) = true ↔ b = crc8 s := by
  simp [frameValid]

/-! ### One iteration or one frame at the parse position (R46, R80) -/

theorem exec_leadTlm {s : State} (h : s.rxbuf[0]? = some MAGIC0) :
    exec .leadTlm s = .next (s.perform (decideAction s.rxbuf)) :=
  (whenSelected_eq_next_iff _ _ _ _).mpr ⟨by simp [h], by rw [decideAction_of_magic0 h]⟩

theorem exec_leadRsp {s : State} {x : RegAddr} (h : s.rxbuf[0]? = some (rspLead x)) :
    exec (.leadRsp x) s = .next (s.perform (decideAction s.rxbuf)) :=
  (whenSelected_eq_next_iff _ _ _ _).mpr ⟨by simp [h], by rw [decideAction_of_rspLead h]⟩

theorem exec_leadUnk {s : State} {x : RegAddr} (h : s.rxbuf[0]? = some (unkLead x))
    (hx : unkLead x ≠ MAGIC0) : exec (.leadUnk x) s = .next (s.perform .dropOne) :=
  (whenSelected_eq_next_iff _ _ _ _).mpr ⟨by simp [h, hx], rfl⟩

/-- An unrecognised byte leaves the loop as if it had not arrived (R91). -/
theorem parse_cons_unkLead {x : RegAddr} (hx : unkLead x ≠ MAGIC0) (B : List Byte) :
    parse (unkLead x :: B) = parse B := by
  have hd : decideAction (unkLead x :: B) = .dropOne := decideAction_of_unkLead rfl hx
  rw [parse_of_ne_stop (by simp [hd]), hd]
  rfl

theorem decideAction_frame4 {x : RegAddr} {l h c : Byte} (hc : c = crc8 [rspLead x, l, h]) :
    decideAction (frame4 (rspLead x) l h c) = .emitRsp := by
  rw [decideAction_of_rspLead (x := x) rfl]
  simp [responseBranch, headCrcOk, frame4, hc]

theorem decideAction_of_valid_tlm {f : List Byte} (hmagic : magicHead f = true) (hlen : f.length = 37)
    (hvalid : frameValid f = true) : decideAction f = .emitTlm := by
  have hcrc : headCrcOk f 36 = true :=
    (headCrcOk_iff f 36 (by omega)).mpr (by rwa [List.take_of_length_le hlen.le])
  simp [decideAction_of_magicHead hmagic, hlen, hcrc]

/-- Where the decided action takes the whole buffer, the loop emits it and is done. -/
theorem parse_of_consumed_all {B : List Byte} (h : decideAction B ≠ .stop)
    (hall : (decideAction B).consumed = B.length) : parse B = ((decideAction B).emitted B, []) := by
  rw [parse_of_ne_stop h, hall, List.drop_length, parse_of_stop decideAction_nil, List.append_nil]

theorem parse_frame4 {x : RegAddr} {l h c : Byte} (hc : c = crc8 [rspLead x, l, h]) :
    parse (frame4 (rspLead x) l h c) =
      ([{ kind := .RSP, bytes := frame4 (rspLead x) l h c }], []) := by
  have hd := decideAction_frame4 hc
  rw [parse_of_consumed_all (by simp [hd]) (by simp [hd, Action.consumed]), hd]
  rfl

theorem parse_of_valid_tlm {f : List Byte} (hmagic : magicHead f = true) (hlen : f.length = 37)
    (hvalid : frameValid f = true) : parse f = ([{ kind := .TLM, bytes := f }], []) := by
  have hd := decideAction_of_valid_tlm hmagic hlen hvalid
  rw [parse_of_consumed_all (by simp [hd]) (by simp [hd, Action.consumed, hlen]), hd]
  simp [Action.emitted, List.take_of_length_le hlen.le]

/-- `FEED` on an empty buffer of bytes that the loop takes whole changes the result alone. -/
theorem exec_feed_of_parse_whole {f : List Byte} {fs : List TaggedFrame} {s : State}
    (hs : s.rxbuf = []) (h : parse f = (fs, [])) :
    exec (.feed f) s = .next { s with result := some (.frames fs) } := by
  obtain ⟨B, p, r⟩ := s
  cases hs
  rw [exec_feed]
  simp only [feedBytes, State.append, List.nil_append, h]

/-! ### The decoder's rejections (R40, R50) -/

theorem decodeOutbound_frame_eq_error_iff (hdr dlo dhi crc : Byte) :
    (∃ r, decodeOutbound [hdr, dlo, dhi, crc] = .error r) ↔ 128 ≤ hdr.toNat ∧ dhi ≠ 0x00#8 := by
  rw [← not_lt, ← bit7Clear_iff]
  by_cases h7 : bit7Clear hdr = true
  · simp [decodeOutbound, h7]
  · by_cases hz : dhi = 0x00#8 <;> simp [decodeOutbound, h7, hz]

theorem decodeOutbound_of_length_ne {f : List Byte} (h : f.length ≠ 4) :
    decodeOutbound f = .error .outboundLength := by
  unfold decodeOutbound
  split
  next => exact absurd rfl h
  next => rfl

theorem decodeOutbound_eq_error_iff (f : List Byte) :
    (∃ r, decodeOutbound f = .error r) ↔ f.length ≠ 4 ∨
      ∃ hdr dlo dhi crc : Byte, f = [hdr, dlo, dhi, crc] ∧ 128 ≤ hdr.toNat ∧ dhi ≠ 0x00#8 := by
  by_cases hlen : f.length = 4
  · obtain ⟨hdr, dlo, dhi, crc, rfl⟩ := List.length_eq_four.mp hlen
    simp [decodeOutbound_frame_eq_error_iff]
  · simp [decodeOutbound_of_length_ne hlen, hlen]

theorem decode_of_decodeTableWord {nbits w : Nat} {i : Instr} (h : decodeTableWord nbits w = some i) :
    decode (tableTransaction nbits w) = .ok i := by
  rw [decodeTableWord] at h
  cases hd : decode (tableTransaction nbits w) with
  | ok j => rw [hd] at h; cases h; rfl
  | error r => rw [hd] at h; cases h

end Sys2Proof.Machine

namespace Sys2Proof.Proofs

open Sys2Proof.Config Sys2Proof.Machine

/-! ### The obligations of `30_encoding.md` -/

/-- Settles O2: one lemma per row of the table. -/
theorem encodingRoundTrips : Obligations.EncodingRoundTrips := by
  intro i
  cases i with
  | crc8 bytes => exact Laws.RoundTrip.crc8 bytes
  | encode r rd v => exact Laws.RoundTrip.encode r rd v
  | encWr r v => exact Laws.RoundTrip.encWr r v
  | encRd r v => exact Laws.RoundTrip.encRd r v
  | feed bs => exact Laws.RoundTrip.feed bs
  | reset => exact Laws.RoundTrip.reset
  | tlmDecode f => exact Laws.RoundTrip.tlmDecode f
  | rspDecode f => exact Laws.RoundTrip.rspDecode f
  | opReserved6 => exact Laws.RoundTrip.opReserved6
  | opReserved7 => exact Laws.RoundTrip.opReserved7
  | cmdWr r l h c => exact Laws.RoundTrip.cmdWr r l h c
  | cmdRd r n c => exact Laws.RoundTrip.cmdRd r n c
  | rsp r l h c => exact Laws.RoundTrip.rsp r l h c
  | tlm v w t a b d e f g s c => exact Laws.RoundTrip.tlm v w t a b d e f g s c
  | leadTlm => exact Laws.RoundTrip.leadTlm
  | leadRsp x => exact Laws.RoundTrip.leadRsp x
  | leadUnk x => exact Laws.RoundTrip.leadUnk x
  | pEmpty => exact Laws.RoundTrip.pEmpty
  | tWait1 => exact Laws.RoundTrip.tWait1
  | tFalse y => exact Laws.RoundTrip.tFalse y
  | tWait => exact Laws.RoundTrip.tWait
  | tEmit => exact Laws.RoundTrip.tEmit
  | tBad => exact Laws.RoundTrip.tBad
  | rWait x => exact Laws.RoundTrip.rWait x
  | rEmit x => exact Laws.RoundTrip.rEmit x
  | rBad x => exact Laws.RoundTrip.rBad x
  | uDrop x => exact Laws.RoundTrip.uDrop x

/-- Settles O13: only a checksum that absorbs itself becomes zero. -/
theorem crcResidueIsZero : Obligations.CrcResidueIsZero := by
  refine ⟨fun s => (crc8_concat_eq_zero_iff s _).mpr rfl, fun f hf => ?_⟩
  obtain ⟨s, b, rfl⟩ := (List.eq_nil_or_concat' f).resolve_left hf
  rw [frameValid_concat, crc8_concat_eq_zero_iff]

/-- Settles O18: the encoder assembles the same four bytes from the fields of the frame. -/
theorem outboundFramesAreThoseEncodeBuilds : Obligations.OutboundFramesAreThoseEncodeBuilds := by
  intro r l h c s
  refine ⟨fun hc => ?_, fun hc => (sendFrame_frame4 _ _ _ _ s).trans (if_neg hc), fun hc => ?_,
    fun hc => (sendFrame_frame4 _ _ _ _ s).trans (if_neg hc)⟩
  · have hsent : exec (.cmdWr r l h c) s = .next (s.returning (.sent (frame4 (rspLead r) l h c))) :=
      (sendFrame_frame4 _ _ _ _ s).trans (if_pos hc)
    have hbuilt : encodeFrame r.toNat false (l.toNat + 256 * h.toNat) = frame4 (rspLead r) l h c := by
      rw [encodeFrame_write, ofInt_toNat_regAddr, dataLow_of_bytes, dataHigh_of_bytes, hc]
    refine ⟨hsent, hsent.trans ?_⟩
    rw [← hbuilt]
    rfl
  · have hsent : exec (.cmdRd r l c) s = .next (s.returning (.sent (frame4 (unkLead r) l 0x00#8 c))) :=
      (sendFrame_frame4 _ _ _ _ s).trans (if_pos hc)
    have hbuilt : encodeFrame r.toNat true l.toNat = frame4 (unkLead r) l 0x00#8 c := by
      have hl : dataLow l.toNat = l := by simpa using dataLow_of_bytes l 0x00#8
      rw [encodeFrame_read, ofInt_toNat_regAddr, hl, hc]
    refine ⟨hsent, hsent.trans ?_⟩
    rw [← hbuilt]
    rfl

/-- Settles O25: each lead byte performs the action that `Decide` takes on it. -/
theorem leadByteRunsItsBranch : Obligations.LeadByteRunsItsBranch := by
  intro s b rest hB
  have hlead : s.rxbuf[0]? = some b := by simp [hB]
  refine ⟨fun hb => ?_, fun x hx => ?_, fun x hx hb => ?_⟩
  · have hrun := exec_leadTlm (hb ▸ hlead)
    exact ⟨hrun.trans (exec_decodeHead s).symm, _, hrun⟩
  · have hrun := exec_leadRsp (rspLead_eq_of_toNat hx ▸ hlead)
    exact ⟨hrun.trans (exec_decodeHead s).symm, _, hrun⟩
  · obtain rfl := unkLead_eq_of_toNat hx
    rw [exec_leadUnk hlead hb, State.perform, State.dropHead, hB]
    rfl

/-- Settles O39: a valid frame is decided whole, and nothing is left behind it. -/
theorem inboundFramesAreFed : Obligations.InboundFramesAreFed := by
  intro s
  refine ⟨fun r l h c => ⟨⟨rfl, _, rfl⟩, fun hs hc => ?_⟩,
    fun v w t a b d e f g q c => ⟨⟨rfl, _, rfl⟩, fun hs hv => ?_⟩⟩
  · exact exec_feed_of_parse_whole hs (parse_frame4 hc)
  · exact exec_feed_of_parse_whole hs (parse_of_valid_tlm (magicHead_frame37 ..) (length_frame37 ..) hv)

/-- Settles O44: the header of a read request is an unrecognised lead byte. -/
theorem loopedReadRequestLosesItsHeader : Obligations.LoopedReadRequestLosesItsHeader := by
  intro r v s hs hr
  have hx : unkLead (BitVec.ofInt 7 r) ≠ MAGIC0 := by
    rw [Ne, unkLead_eq_magic0_iff]
    have := toNat_ofInt7 r
    omega
  have hsent : exec (.encRd r v) s = .next (s.returning (.sent (encodeFrame r true v))) := rfl
  rw [encodeFrame_read] at hsent
  refine ⟨_, _, _, hsent, ?_⟩
  simp only [exec_feed, feedBytes, State.append, hs, List.nil_append, parse_cons_unkLead hx]

/-- Settles O45: the frame is emitted whole, and the view undoes what the encoder assembled. -/
theorem loopedWriteRequestReturnsItsValue : Obligations.LoopedWriteRequestReturnsItsValue := by
  intro r v s hs
  have hfed := exec_feed_of_parse_whole hs (parse_frame4 (x := BitVec.ofInt 7 r) (l := dataLow v)
    (h := dataHigh false v) rfl)
  rw [← encodeFrame_write] at hfed
  refine ⟨encodeFrame r false v, ⟨BitVec.ofInt 7 r, writtenValue v⟩, rfl, hfed, ?_, toNat_ofInt7 r,
    writtenValue_emod v, (writtenValue_bounds v).1, (writtenValue_bounds v).2, writtenValue_of_fits⟩
  rw [← responseOf_encodeFrame_write]
  rfl

/-- Settles O46: the fields stand where the view reads them. -/
theorem telemetryViewReturnsTheFields : Obligations.TelemetryViewReturnsTheFields := by
  intro v w t a b d e f g q c s
  obtain ⟨-, -, ht, ha, hb, hd, he, hf, hg, hq, -⟩ := frame37_fields v w t a b d e f g q c
  simp [exec, execTlmDecode, telemetryOf, ht, ha, hb, hd, he, hf, hg, hq, State.returning]

/-- Settles O56: of the six kinds of transaction only the outbound bytes can be rejected. -/
theorem onlyImpossibleOutboundBytesAreUndecodable :
    Obligations.OnlyImpossibleOutboundBytesAreUndecodable := by
  intro t
  cases t with
  | outbound f => simpa [decode] using decodeOutbound_eq_error_iff f
  | select | form | inbound | lead | iteration => simp [decode]

/-- Settles O1, each word run through the decoder. -/
theorem wordsDecodeToTheirRows : Obligations.WordsDecodeToTheirRows := by
  unfold Obligations.WordsDecodeToTheirRows
  decide

/-- Settles O4: every byte is the magic or the encoding of one of the other two lead bytes. -/
theorem leadByteMapCoversEveryByte : Obligations.LeadByteMapCoversEveryByte := by
  intro b
  refine ⟨fun hb => ?_, fun hb => ?_, fun hb hne => ?_⟩
  · obtain rfl : b = MAGIC0 := BitVec.eq_of_toNat_eq hb
    rfl
  · obtain ⟨x, hx, rfl⟩ := exists_rspLead_eq hb
    exact ⟨x, hx, Laws.RoundTrip.leadRsp x rfl⟩
  · obtain ⟨x, hx, rfl⟩ := exists_unkLead_eq hb
    have hwf : unkLead x ≠ MAGIC0 := fun h => hne (congrArg BitVec.toNat h)
    exact ⟨x, hx, Laws.RoundTrip.leadUnk x (bne_iff_ne.mpr hwf)⟩

/-- Settles O6: the placed word is a submitted transaction, on the buffer it is read from. -/
theorem tableWordRunsNext : Obligations.TableWordRunsNext := by
  intro s nbits w i h
  have hdec := decode_of_decodeTableWord h
  unfold State.withFetchWord
  cases ht : tableTransaction nbits w with
  | lead b => exact step_withTransaction (ht ▸ hdec) { s with rxbuf := [b] }
  | iteration B => exact step_withTransaction (ht ▸ hdec) { s with rxbuf := B }
  | select | form | outbound | inbound => exact step_withTransaction (ht ▸ hdec) s

/-- Settles O54. -/
theorem reservedOperationsAreRefused : Obligations.ReservedOperationsAreRefused :=
  fun _ => ⟨rfl, rfl⟩

end Sys2Proof.Proofs

namespace Sys2Proof.Machine

open Sys2Proof.Config

/-! ### One shift in the arithmetic of numbers (R61) -/

/-- One of the eight iterations of R61 on a number 0..255. -/
def shiftNat (a : Nat) : Nat :=
  if 128 ≤ a then ((2 * a) ^^^ 0x07) % 256 else (2 * a) % 256

theorem toNat_crcShift (a : Byte) : (crcShift a).toNat = shiftNat a.toNat := by
  have hshift : (a <<< 1).toNat = (2 * a.toNat) % 256 := by
    rw [BitVec.toNat_shiftLeft, Nat.shiftLeft_eq, pow_one, Nat.mul_comm]
  have hmsb : a.msb = true ↔ 128 ≤ a.toNat := by simp [BitVec.msb_eq_decide]
  simp only [crcShift, shiftNat, hmsb]
  split
  · rw [BitVec.toNat_xor, hshift]
    exact (Nat.xor_mod_two_pow (n := 8)).symm
  · exact hshift

theorem toNat_crcShift_iterate (n : Nat) (a : Byte) :
    (crcShift^[n] a).toNat = shiftNat^[n] a.toNat :=
  Function.Semiconj.iterate_right toNat_crcShift n a

/-! ### The step is injective in each operand (R65)

The shift is linear and vanishes only at zero, so it is injective; so are its iterations and, as the step
depends on the XOR of its operands alone, the step in either of them. -/

theorem crcShift_injective : Function.Injective crcShift := by
  intro a b h
  rw [← BitVec.xor_eq_zero_iff, ← crcShift_eq_zero_iff, crcShift_xor]
  exact BitVec.xor_eq_zero_iff.mpr h

theorem crc8Step_comm (acc b : Byte) : crc8Step acc b = crc8Step b acc := by
  rw [crc8Step, BitVec.xor_comm, crc8Step]

theorem crc8Step_right_injective (acc : Byte) : Function.Injective (crc8Step acc) :=
  fun _ _ h => (BitVec.xor_right_inj acc).mp (crcShift_injective.iterate CRC_WIDTH h)

theorem crc8Step_left_injective (b : Byte) : Function.Injective fun acc => crc8Step acc b := by
  simpa only [crc8Step_comm _ b] using crc8Step_right_injective b

/-! ### Absorbing a sequence (R66, R67) -/

theorem crc8_append (s t : List Byte) : crc8 (s ++ t) = t.foldl crc8Step (crc8 s) := by
  simp only [crc8_eq_foldl, List.foldl_append]

/-- The step is linear over GF(2) in both operands together. -/
theorem crc8Step_xor_xor (acc acc' b b' : Byte) :
    crc8Step (acc ^^^ acc') (b ^^^ b') = crc8Step acc b ^^^ crc8Step acc' b' := by
  rw [crc8Step, crc8Step, crc8Step, ← crcShift_iterate_xor, BitVec.xor_assoc, BitVec.xor_assoc,
    xor_left_comm acc']

/-- Absorbing is linear in the accumulator and the sequence together. -/
theorem foldl_crc8Step_xor {s t : List Byte} (h : s.length = t.length) (acc acc' : Byte) :
    (List.zipWith (· ^^^ ·) s t).foldl crc8Step (acc ^^^ acc') =
      s.foldl crc8Step acc ^^^ t.foldl crc8Step acc' := by
  induction s generalizing t acc acc' with
  | nil =>
    obtain rfl := List.length_eq_zero_iff.mp h.symm
    rfl
  | cons b s ih =>
    obtain ⟨b', t, rfl⟩ := List.exists_cons_of_length_eq_add_one h.symm
    simp only [List.zipWith_cons_cons, List.foldl_cons, crc8Step_xor_xor, ih (Nat.succ.inj h)]

/-- Leading zeros do not change the checksum: the accumulator starts at zero. -/
theorem crc8_zero_cons (s : List Byte) : crc8 (0x00#8 :: s) = crc8 s := by
  have hstep : crc8Step CRC_INIT 0x00#8 = CRC_INIT := (crc8Step_eq_zero_iff _ _).mpr rfl
  rw [crc8_eq_foldl, List.foldl_cons, hstep, crc8_eq_foldl]

theorem crc8_replicate_zero (n : Nat) : crc8 (List.replicate n 0x00#8) = 0x00#8 := by
  induction n with
  | zero => exact crc8_nil
  | succ n ih => rw [List.replicate_succ, crc8_zero_cons, ih]

/-- The bytes that follow never cancel a difference of the accumulators. -/
theorem foldl_crc8Step_injective (s : List Byte) : Function.Injective (s.foldl crc8Step) := by
  induction s with
  | nil => exact Function.injective_id
  | cons b s ih => exact ih.comp (crc8Step_left_injective b)

/-- Two sequences that differ in one byte have different checksums. -/
theorem crc8_append_cons_inj (before after : List Byte) (b b' : Byte) :
    crc8 (before ++ b :: after) = crc8 (before ++ b' :: after) ↔ b = b' := by
  rw [crc8_append, crc8_append, List.foldl_cons, List.foldl_cons,
    (foldl_crc8Step_injective after).eq_iff, (crc8Step_right_injective _).eq_iff]

theorem xor_bit_ne (b : Byte) {k : Nat} (hk : k < 8) : b ^^^ (1#8 <<< k) ≠ b := by
  intro h
  have hbit := congrArg (BitVec.getLsbD · k) h
  simp [hk] at hbit

end Sys2Proof.Machine

namespace Sys2Proof.Proofs

open Sys2Proof.Machine

/-! ### The obligations of `40_crc8.md` -/

/-- Settles O8: the shift of bytes and the shift of numbers correspond, and so do their iterations. -/
theorem crcStepIsEightShifts : Obligations.CrcStepIsEightShifts :=
  fun acc b => (toNat_crcShift_iterate 8 (acc ^^^ b)).trans (by rw [BitVec.toNat_xor]; rfl)

/-- Settles O10: bytes are finitely many, so that an injective step is bijective. -/
theorem crcStepIsBijection : Obligations.CrcStepIsBijection :=
  ⟨crc8Step_xor, fun acc => Finite.injective_iff_bijective.mp (crc8Step_right_injective acc),
    fun b => Finite.injective_iff_bijective.mp (crc8Step_left_injective b)⟩

/-- Settles O11: both accumulators start at zero, and so does their XOR. -/
theorem crcIsLinear : Obligations.CrcIsLinear := by
  refine ⟨fun s t h => ?_, crc8_zero_cons, crc8_replicate_zero⟩
  rw [crc8_eq_foldl, crc8_eq_foldl, crc8_eq_foldl, ← foldl_crc8Step_xor h]
  rfl

/-- Settles O12: a flipped bit makes another byte, and another byte makes another checksum. -/
theorem crcSeesEverySingleBitFlip : Obligations.CrcSeesEverySingleBitFlip :=
  fun before after b _ hk h => xor_bit_ne b hk ((crc8_append_cons_inj before after b _).mp h).symm

/-- Settles O7: `CRC8` runs in one arm of `exec`, and its loop absorbs the last byte last. -/
theorem crc8ReturnsChecksum : Obligations.Crc8ReturnsChecksum :=
  fun bytes _ => ⟨fun _ => rfl, rfl, crc8_nil, crc8_concat bytes⟩

end Sys2Proof.Proofs

namespace Sys2Proof.Machine

/-! ### The bytes of both forms of `ENCODE` as numbers, and the masks on its operands (R71 to R73, R77) -/

theorem toNat_headerByte (r : Int) (rd : Bool) :
    ((headerByte r rd).toNat : Int) = (if rd then 128 else 0) + r % 128 := by
  cases rd with
  | false => rw [headerByte_write, toNat_rspLead, toNat_ofInt7, if_neg Bool.false_ne_true, zero_add]
  | true =>
    rw [headerByte_read, toNat_unkLead, Nat.cast_add, toNat_ofInt7, if_pos rfl, add_comm]
    rfl

theorem toNat_dataHigh (rd : Bool) (v : Int) :
    ((dataHigh rd v).toNat : Int) = if rd then 0 else v / 256 % 256 := by
  cases rd with
  | false => exact toNat_dataHigh_write v
  | true => rfl

theorem headerByte_congr {r r' : Int} (rd : Bool) (h : r % 128 = r' % 128) :
    headerByte r rd = headerByte r' rd := by
  rw [byte_eq_iff_toNat_cast, toNat_headerByte, toNat_headerByte, h]

theorem dataLow_congr {v v' : Int} (h : v % 256 = v' % 256) : dataLow v = dataLow v' := by
  rw [byte_eq_iff_toNat_cast, toNat_dataLow, toNat_dataLow, h]

theorem dataHigh_write_congr {v v' : Int} (h : v % 65536 = v' % 65536) :
    dataHigh false v = dataHigh false v' := by
  rw [byte_eq_iff_toNat_cast, toNat_dataHigh_write, toNat_dataHigh_write]
  omega

/-- A write request sees seven bits of its register and sixteen of its value (R77 a). -/
theorem encodeFrame_write_congr {r r' v v' : Int} (hr : r % 128 = r' % 128)
    (hv : v % 65536 = v' % 65536) : encodeFrame r false v = encodeFrame r' false v' := by
  have hlow : v % 256 = v' % 256 := by omega
  simp only [encodeFrame, headerByte_congr false hr, dataLow_congr hlow, dataHigh_write_congr hv]

/-- A read request sees seven bits of its register and eight of its count (R77 a). -/
theorem encodeFrame_read_congr {r r' v v' : Int} (hr : r % 128 = r' % 128)
    (hv : v % 256 = v' % 256) : encodeFrame r true v = encodeFrame r' true v' := by
  have hhigh : dataHigh true v = dataHigh true v' := rfl
  simp only [encodeFrame, headerByte_congr true hr, dataLow_congr hv, hhigh]

/-- What `ENC.WR` answers. -/
theorem exec_encWr (r v : Int) (s : State) :
    exec (.encWr r v) s = .next (s.returning (.sent (encodeFrame r false v))) := rfl

/-- What `ENC.RD` answers. -/
theorem exec_encRd (r v : Int) (s : State) :
    exec (.encRd r v) s = .next (s.returning (.sent (encodeFrame r true v))) := rfl

end Sys2Proof.Machine

namespace Sys2Proof.Proofs

open Sys2Proof.Machine

/-! ### The obligations of `41_encoder.md` -/

/-- Settles O14: the frame is laid out from the three assembled bytes, each of which is known as a
number. -/
theorem encodeBuildsCommandFrame : Obligations.EncodeBuildsCommandFrame :=
  fun r v rd _ => ⟨headerByte r rd, dataLow v, dataHigh rd v, _, rfl, toNat_headerByte r rd,
    toNat_dataLow v, toNat_dataHigh rd v, rfl⟩

/-- Settles O15: the two data bytes together are the value modulo 65536. -/
theorem writeRequestCarriesSixteenBits : Obligations.WriteRequestCarriesSixteenBits := by
  intro r v s
  have hheader : ((headerByte r false).toNat : Int) = r % 128 := by simp [toNat_headerByte]
  have hword : ((dataLow v).toNat : Int) + 256 * (dataHigh false v).toNat = v % 65536 := by
    rw [← leWord_write]
    simp [leWord]
  exact ⟨headerByte r false, dataLow v, dataHigh false v, rfl, hheader, hword, rfl⟩

/-- Settles O16: the low byte is the count, and the high byte of a read request is constant. -/
theorem readRequestCarriesCount : Obligations.ReadRequestCarriesCount :=
  fun r v _ => ⟨headerByte r true, dataLow v, rfl, toNat_headerByte r true, toNat_dataLow v, rfl⟩

/-- Settles O17: the answer depends on the operands through the frame alone. -/
theorem encodeMasksItsOperands : Obligations.EncodeMasksItsOperands := by
  intro r r' v v' s hr
  refine ⟨fun hv => ?_, fun hv => ?_⟩
  · rw [exec_encWr, exec_encWr, encodeFrame_write_congr hr hv]
  · rw [exec_encRd, exec_encRd, encodeFrame_read_congr hr hv]

end Sys2Proof.Proofs

namespace Sys2Proof.Machine

open Sys2Proof.Config

/-! Proofs about `42_decoder.md`: which case a buffer selects, what the selected case answers, and how the
loop passes bytes that it does not recognise.

### The decoder, one branch at a time (R81) -/

theorem decodeHead_of_magicHead {B : List Byte} (h : magicHead B = true) :
    decodeHead B = if B.length < TLM_LEN then .tWait
      else if headCrcOk B 36 then .tEmit else .tBad := by
  match B, h with
  | [], h => simp [magicHead] at h
  | [_], h => simp [magicHead] at h
  | a :: b :: B, h =>
    obtain ⟨rfl, rfl⟩ : a = MAGIC0 ∧ b = MAGIC1 := by simpa [magicHead] using h
    simp [decodeHead]

theorem decodeHead_of_rspLead {B : List Byte} {x : RegAddr} (h : B[0]? = some (rspLead x)) :
    decodeHead B = if B.length < CMD_LEN then .rWait x
      else if headCrcOk B 3 then .rEmit x else .rBad x := by
  match B, h with
  | b :: B, h =>
    obtain rfl : b = rspLead x := by simpa using h
    simp [decodeHead]

theorem decodeHead_of_unkLead {B : List Byte} {x : RegAddr} (h : B[0]? = some (unkLead x))
    (hx : unkLead x ≠ MAGIC0) : decodeHead B = .uDrop x := by
  match B, h with
  | b :: B, h =>
    obtain rfl : b = unkLead x := by simpa using h
    simp [decodeHead, hx]

theorem selects_tBad_iff (B : List Byte) :
    selects B .tBad = true ↔ magicHead B = true ∧ 37 ≤ B.length ∧ headCrcOk B 36 = false := by
  simp [selects, selTBad, and_assoc]

/-- A buffer selects no case but the one the decoder names (R81). -/
theorem decodeHead_of_selects {B : List Byte} {i : Instr} (h : selects B i = true) :
    decodeHead B = i := by
  cases i with
  | pEmpty =>
    obtain rfl : B = [] := by simpa [selects, selPEmpty] using h
    rfl
  | tWait1 =>
    obtain ⟨h0, h1⟩ : B[0]? = some MAGIC0 ∧ B.length = 1 := by simpa [selects, selTWait1] using h
    obtain ⟨b, rfl⟩ := List.length_eq_one_iff.mp h1
    obtain rfl : b = MAGIC0 := by simpa using h0
    rfl
  | tFalse y =>
    match B, h with
    | [], h => simp [selects, selTFalse] at h
    | [_], h => simp [selects, selTFalse] at h
    | a :: b :: B, h =>
      obtain ⟨⟨rfl, rfl⟩, hy⟩ : (a = MAGIC0 ∧ b = y) ∧ y ≠ MAGIC1 := by
        simpa [selects, selTFalse] using h
      simp [decodeHead, hy]
  | tWait =>
    obtain ⟨⟨hmagic, -⟩, hlen⟩ : (magicHead B = true ∧ 2 ≤ B.length) ∧ B.length < 37 := by
      simpa [selects, selTWait] using h
    rw [decodeHead_of_magicHead hmagic, if_pos hlen]
  | tEmit =>
    obtain ⟨⟨hmagic, hlen⟩, hcrc⟩ : (magicHead B = true ∧ 37 ≤ B.length) ∧ headCrcOk B 36 = true := by
      simpa [selects, selTEmit] using h
    rw [decodeHead_of_magicHead hmagic, if_neg hlen.not_gt, if_pos hcrc]
  | tBad =>
    obtain ⟨hmagic, hlen, hcrc⟩ := (selects_tBad_iff B).mp h
    rw [decodeHead_of_magicHead hmagic, if_neg hlen.not_gt, if_neg (by simp [hcrc])]
  | rWait x =>
    simp only [selects, selRWait, Bool.and_eq_true, beq_iff_eq, decide_eq_true_eq] at h
    obtain ⟨⟨hlead, -⟩, hlen⟩ := h
    rw [decodeHead_of_rspLead hlead, if_pos hlen]
  | rEmit x =>
    simp only [selects, selREmit, Bool.and_eq_true, beq_iff_eq, decide_eq_true_eq] at h
    obtain ⟨⟨hlead, hlen⟩, hcrc⟩ := h
    rw [decodeHead_of_rspLead hlead, if_neg hlen.not_gt, if_pos hcrc]
  | rBad x =>
    simp only [selects, selRBad, Bool.and_eq_true, beq_iff_eq, decide_eq_true_eq,
      Bool.not_eq_true'] at h
    obtain ⟨⟨hlead, hlen⟩, hcrc⟩ := h
    rw [decodeHead_of_rspLead hlead, if_neg hlen.not_gt, if_neg (by simp [hcrc])]
  | uDrop x =>
    simp only [selects, selUDrop, Bool.and_eq_true, beq_iff_eq, bne_iff_ne] at h
    exact decodeHead_of_unkLead h.1 h.2
  | crc8 | encode | encWr | encRd | feed | reset | tlmDecode | rspDecode | opReserved6
  | opReserved7 | cmdWr | cmdRd | rsp | tlm | leadTlm | leadRsp | leadUnk => simp [selects] at h

/-! ### What a selected case answers (R82 to R91) -/

/-- A selected case is the one the decoder reads, and it performs its action. -/
theorem exec_of_selects {s : State} {i : Instr} {act : Action} (hact : caseAction i = some act)
    (hsel : selects s.rxbuf i = true) :
    decodeHead s.rxbuf = i ∧ exec i s = .next (s.perform act) :=
  ⟨decodeHead_of_selects hsel, by rw [exec_iteration hact, hsel]; rfl⟩

theorem State.perform_stop (s : State) :
    s.perform .stop = { s with result := some (.frames []) } := rfl

theorem State.perform_dropOne {s : State} {b : Byte} {rest : List Byte} (hB : s.rxbuf = b :: rest) :
    s.perform .dropOne = { s with rxbuf := rest, result := some (.frames []) } := by
  simp [State.perform, State.dropHead, State.returning, Action.consumed, Action.emitted, hB]

theorem State.perform_emitTlm {s : State} {f rest : List Byte} (hB : s.rxbuf = f ++ rest)
    (hf : f.length = 37) : s.perform .emitTlm =
      { s with rxbuf := rest, result := some (.frames [{ kind := .TLM, bytes := f }]) } := by
  simp [State.perform, State.dropHead, State.returning, Action.consumed, Action.emitted, hB, ← hf]

theorem State.perform_emitRsp {s : State} {f rest : List Byte} (hB : s.rxbuf = f ++ rest)
    (hf : f.length = 4) : s.perform .emitRsp =
      { s with rxbuf := rest, result := some (.frames [{ kind := .RSP, bytes := f }]) } := by
  simp [State.perform, State.dropHead, State.returning, Action.consumed, Action.emitted, hB, ← hf]

/-! ### The check of a candidate with bytes behind it (R45) -/

theorem headCrcOk_append_cons (P : List Byte) (c : Byte) (rest : List Byte) :
    headCrcOk (P ++ c :: rest) P.length = (c == crc8 P) := by
  rw [List.append_cons, headCrcOk_append (by simp), headCrcOk_concat]

theorem headCrcOk_tlm {body : List Byte} (h : body.length = 34) (c : Byte) (rest : List Byte) :
    headCrcOk (MAGIC0 :: MAGIC1 :: (body ++ c :: rest)) 36 =
      (c == crc8 (MAGIC0 :: MAGIC1 :: body)) := by
  have hlen : (MAGIC0 :: MAGIC1 :: body).length = 36 := by simp [h]
  exact hlen ▸ headCrcOk_append_cons (MAGIC0 :: MAGIC1 :: body) c rest

theorem headCrcOk_rsp (h l d c : Byte) (rest : List Byte) :
    headCrcOk (h :: l :: d :: c :: rest) 3 = (c == crc8 [h, l, d]) :=
  headCrcOk_append_cons [h, l, d] c rest

theorem headCrcOk_eq_true_iff (B : List Byte) (n : Nat) :
    headCrcOk B n = true ↔ some (crc8 (B.take n)) = B[n]? := by
  rw [headCrcOk, beq_iff_eq, eq_comm]

/-! ### The buffers that select each case (R82 to R91) -/

theorem selects_tFalse {y : Byte} (hy : y ≠ MAGIC1) (rest : List Byte) :
    selects (MAGIC0 :: y :: rest) (.tFalse y) = true := by
  simp [selects, selTFalse, hy]

theorem selects_tWait {rest : List Byte} (h : rest.length + 2 < 37) :
    selects (MAGIC0 :: MAGIC1 :: rest) .tWait = true := by
  simp [selects, selTWait, magicHead, h]

theorem selects_tEmit {body : List Byte} (h : body.length = 34) {c : Byte} (rest : List Byte)
    (hc : crc8 (MAGIC0 :: MAGIC1 :: body) = c) :
    selects (MAGIC0 :: MAGIC1 :: (body ++ c :: rest)) .tEmit = true := by
  simp +arith [selects, selTEmit, magicHead, headCrcOk_tlm h, h, hc]

theorem selects_tBad {body : List Byte} (h : body.length = 34) {c : Byte} (rest : List Byte)
    (hc : crc8 (MAGIC0 :: MAGIC1 :: body) ≠ c) :
    selects (MAGIC0 :: MAGIC1 :: (body ++ c :: rest)) .tBad = true := by
  simp +arith [selects_tBad_iff, magicHead, headCrcOk_tlm h, h, hc.symm]

theorem selects_rWait (x : RegAddr) {rest : List Byte} (h : rest.length + 1 < 4) :
    selects (rspLead x :: rest) (.rWait x) = true := by
  simp [selects, selRWait, h]

theorem selects_rEmit (x : RegAddr) {l d c : Byte} (rest : List Byte)
    (hc : crc8 [rspLead x, l, d] = c) :
    selects (rspLead x :: l :: d :: c :: rest) (.rEmit x) = true := by
  simp [selects, selREmit, headCrcOk_rsp, hc]

theorem selects_rBad (x : RegAddr) {l d c : Byte} (rest : List Byte)
    (hc : crc8 [rspLead x, l, d] ≠ c) :
    selects (rspLead x :: l :: d :: c :: rest) (.rBad x) = true := by
  simp [selects, selRBad, headCrcOk_rsp, hc.symm]

theorem selects_uDrop {x : RegAddr} (hx : unkLead x ≠ MAGIC0) (rest : List Byte) :
    selects (unkLead x :: rest) (.uDrop x) = true := by
  simp [selects, selUDrop, hx]

/-! ### Bytes that the loop does not recognise (R91) -/

/-- Unrecognised bytes at the head leave the loop as if they had not arrived. -/
theorem parse_unrecognised_append {garbage : List Byte}
    (h : ∀ b ∈ garbage, 128 ≤ b.toNat ∧ b ≠ MAGIC0) (B : List Byte) :
    parse (garbage ++ B) = parse B := by
  induction garbage with
  | nil => rfl
  | cons b garbage ih =>
    obtain ⟨⟨h7, h0⟩, hrest⟩ := List.forall_mem_cons.mp h
    obtain ⟨x, -, rfl⟩ := exists_unkLead_eq h7
    rw [List.cons_append, parse_cons_unkLead h0, ih hrest]

end Sys2Proof.Machine

namespace Sys2Proof.Proofs

open Sys2Proof.Config Sys2Proof.Machine

/-! ### The obligations of `42_decoder.md` -/

/-- Settles O22: the case is the one the decoder names, and a selected case can be no other. -/
theorem exactlyOneCaseApplies : Obligations.ExactlyOneCaseApplies := fun B =>
  have hsel := selects_decodeHead B
  ⟨decodeHead B, hsel, fun _ hj => (decodeHead_of_selects hj).symm, rfl, caseAction_of_selects hsel⟩

/-- Settles O24: a case runs only where it is selected, and then it is the one the decoder names. -/
theorem unselectedCaseIsRefused : Obligations.UnselectedCaseIsRefused := by
  intro i s hcase hne
  obtain ⟨act, hact⟩ := Option.ne_none_iff_exists'.mp hcase
  have hsel : selects s.rxbuf i = false :=
    Bool.eq_false_of_not_eq_true fun h => hne (decodeHead_of_selects h).symm
  rw [exec_iteration hact, hsel]
  rfl

/-- Settles O30: `FEED` returns the frames of the loop, each of which the decision has checked. -/
theorem emittedFramesAreValid : Obligations.EmittedFramesAreValid := fun newBytes s =>
  ⟨_, _, exec_feed newBytes s, feedBytes_result newBytes s, frameOk_of_mem_parse _⟩

/-- Settles O34: the append adds nothing, and the loop stops at once. -/
theorem feedOfNothingChangesNothing : Obligations.FeedOfNothingChangesNothing := by
  intro s hq
  rw [exec_feed]
  simp only [feedBytes, State.append, List.append_nil, parse_of_stop hq]

/-- Settles O37: the byte `0x55` behind the dropped `0xAA` leads a response candidate, and at least 36
bytes stand there. -/
theorem failedTelemetryIsRescannedAtOnce : Obligations.FailedTelemetryIsRescannedAtOnce := by
  intro s hsel
  refine ⟨_, (exec_of_selects rfl hsel).2, ?_⟩
  obtain ⟨hmagic, hlen, -⟩ := (selects_tBad_iff s.rxbuf).mp hsel
  obtain ⟨-, h1⟩ : s.rxbuf[0]? = some MAGIC0 ∧ s.rxbuf[1]? = some MAGIC1 := by
    simpa [magicHead] using hmagic
  have h55 : rspLead 0x55 = MAGIC1 := by decide
  have hlead : (s.perform .dropOne).rxbuf[0]? = some (rspLead 0x55) := by
    rw [h55]
    simpa [Action.consumed] using h1
  have hfull : ¬ (s.perform .dropOne).rxbuf.length < CMD_LEN := by
    simp only [State.perform_rxbuf, Action.consumed, List.length_drop, CMD_LEN]
    omega
  rw [decodeHead_of_rspLead hlead, if_neg hfull]
  split
  · exact .inl rfl
  · exact .inr rfl

/-- Settles O43: the loop passes the unrecognised bytes and takes the frame whole. -/
theorem resyncPastUnrecognisedBytes : Obligations.ResyncPastUnrecognisedBytes := by
  intro garbage h l d s hs hgarbage hh
  obtain ⟨x, -, rfl⟩ := exists_rspLead_eq hh
  exact exec_feed_of_parse_whole hs ((parse_unrecognised_append hgarbage _).trans (parse_frame4 rfl))

/-- Settles O19: each buffer selects its case, whose action is a stop. -/
theorem waitingCasesStop : Obligations.WaitingCasesStop := by
  intro s
  rw [← State.perform_stop]
  refine ⟨fun hB => ?_, fun hB => ?_, fun rest hB hlen => ?_, fun x b rest hB hx hlen => ?_⟩
  · exact exec_of_selects rfl (hB ▸ rfl)
  · exact exec_of_selects rfl (hB ▸ rfl)
  · exact exec_of_selects rfl (hB ▸ selects_tWait hlen)
  · obtain rfl := rspLead_eq_of_toNat hx
    exact exec_of_selects rfl (hB ▸ selects_rWait x hlen)

/-- Settles O20: each buffer selects its case, whose action drops one byte. -/
theorem failingCasesDropOneByte : Obligations.FailingCasesDropOneByte := by
  intro s
  refine ⟨fun y rest hB hy => ?_, fun body c rest hlen hB hc => ?_,
    fun x h l d c rest hB hx hc => ?_, fun x b rest hB hx hb => ?_⟩
  · rw [← State.perform_dropOne hB]
    exact exec_of_selects rfl (hB ▸ selects_tFalse hy rest)
  · rw [← State.perform_dropOne hB]
    exact exec_of_selects rfl (hB ▸ selects_tBad hlen rest hc)
  · obtain rfl := rspLead_eq_of_toNat hx
    rw [← State.perform_dropOne hB]
    exact exec_of_selects rfl (hB ▸ selects_rBad x rest hc)
  · obtain rfl := unkLead_eq_of_toNat hx
    rw [← State.perform_dropOne hB]
    exact exec_of_selects rfl (hB ▸ selects_uDrop hb rest)

/-- Settles O21: each buffer selects its case, whose action emits the candidate at the head. -/
theorem emittingCasesTakeTheCandidate : Obligations.EmittingCasesTakeTheCandidate := by
  intro s
  refine ⟨fun body c rest hlen hB hc => ?_, fun x h l d c rest hB hx hc => ?_⟩
  · rw [← State.perform_emitTlm (f := 0xAA#8 :: 0x55#8 :: (body ++ [c])) (by simp [hB]) (by simp [hlen])]
    exact exec_of_selects rfl (hB ▸ selects_tEmit hlen rest hc)
  · obtain rfl := rspLead_eq_of_toNat hx
    rw [← State.perform_emitRsp (f := [rspLead x, l, d, c]) hB rfl]
    exact exec_of_selects rfl (hB ▸ selects_rEmit x rest hc)

/-- Settles O23: the stops are the quiescent shapes, and the other tests are those of the branch that the
leading byte selects. -/
theorem decideTestsInOrder : Obligations.DecideTestsInOrder := by
  refine ⟨decideAction_nil, fun b rest => ⟨?_, ?_, ?_, ?_, ?_, ?_, ?_⟩⟩
  · rintro rfl rfl
    exact QuiescentShape.magic0.quiescent
  · rintro y more rfl rfl hy
    exact (Option.some.inj (caseAction_of_selects (selects_tFalse hy more))).symm
  · rintro more rfl rfl hlen
    exact (QuiescentShape.telemetry more (by simp only [List.length_cons] at hlen; omega)).quiescent
  · rintro more rfl rfl hlen
    rw [decideAction_of_magicHead rfl, if_neg hlen.not_gt]
    simp only [headCrcOk_eq_true_iff]
  · intro h7 hlen
    exact (QuiescentShape.response b rest h7 (by simp only [List.length_cons] at hlen; omega)).quiescent
  · intro h7 hlen
    rw [decideAction_of_bit7Clear ((bit7Clear_iff b).mpr h7), responseBranch, if_neg hlen.not_gt]
    simp only [headCrcOk_eq_true_iff]
  · intro h7 h0
    exact decideAction_of_unrecognised h0 (by rw [bit7Clear_iff]; omega) rest

end Sys2Proof.Proofs

namespace Sys2Proof.Machine

open Sys2Proof.Config

/-! Proofs about `43_views.md`: what each view answers, by the length of its operand.

### The views, one equation per length (R100, R104, R107) -/

theorem exec_tlmDecode_of_length_eq {f : List Byte} (h : f.length = 37) (s : State) :
    exec (.tlmDecode f) s = .next (s.returning (.telemetry (telemetryOf f))) :=
  if_neg (not_not_intro h)

theorem exec_tlmDecode_of_length_ne {f : List Byte} (h : f.length ≠ 37) (s : State) :
    exec (.tlmDecode f) s = .next s.raiseWrongLength :=
  if_pos h

theorem exec_rspDecode_of_length_eq {f : List Byte} (h : f.length = 4) (s : State) :
    exec (.rspDecode f) s = .next (s.returning (.response (responseOf f))) :=
  if_neg (not_not_intro h)

theorem exec_rspDecode_of_length_ne {f : List Byte} (h : f.length ≠ 4) (s : State) :
    exec (.rspDecode f) s = .next s.raiseWrongLength :=
  if_pos h

/-! ### The fields of a response (R105, R106) -/

/-- Masking with `0x7F` takes the header modulo 128, whatever its bit 7 (R105). -/
theorem toNat_leadBits (b : Byte) : (leadBits b).toNat = b.toNat % 128 := by
  have hmask : REG_MASK.toNat = 2 ^ 7 - 1 := rfl
  rw [leadBits, BitVec.toNat_setWidth, BitVec.toNat_and, hmask, Nat.and_two_pow_sub_one_eq_mod,
    Nat.mod_mod]

/-- The sign-corrected little-endian value of two data bytes (R106). -/
theorem sext16_leWord (l h : Byte) :
    sext16 (leWord l h) = if l.toNat + 256 * h.toNat < 32768 then (l.toNat + 256 * h.toNat : Int)
      else (l.toNat + 256 * h.toNat : Int) - 65536 := by
  simp only [sext16, leWord, Nat.cast_add, Nat.cast_mul, Nat.cast_ofNat]

/-! ### Emitted frames (R108) -/

/-- The view that the tag of a good frame names answers the record of that kind: the tag fixes the
length. -/
theorem FrameOk.exec_viewFor {f : TaggedFrame} (hf : FrameOk f) (s : State) :
    (f.kind = .TLM ∧
      exec (Pseudo.viewFor f) s = .next (s.returning (.telemetry (telemetryOf f.bytes)))) ∨
    (f.kind = .RSP ∧
      exec (Pseudo.viewFor f) s = .next (s.returning (.response (responseOf f.bytes)))) := by
  obtain ⟨hkind, hlen, -⟩ | ⟨hkind, hlen, -⟩ := hf.shape
  · exact .inr ⟨hkind, by rw [Pseudo.viewFor, hkind]; exact exec_rspDecode_of_length_eq hlen s⟩
  · exact .inl ⟨hkind, by rw [Pseudo.viewFor, hkind]; exact exec_tlmDecode_of_length_eq hlen s⟩

end Sys2Proof.Machine

namespace Sys2Proof.Proofs

open Sys2Proof.Config Sys2Proof.Machine

/-! ### The obligations of `43_views.md` -/

/-- Settles O48: four bytes are of the right length, and each field has its arithmetic form. -/
theorem responseViewReturnsRegisterAndValue : Obligations.ResponseViewReturnsRegisterAndValue := by
  intro h l d c s
  obtain ⟨hlo, hhi⟩ := sext16_bounds (leWord_lt l d)
  exact ⟨responseOf [h, l, d, c], exec_rspDecode_of_length_eq rfl s, toNat_leadBits h,
    sext16_leWord l d, hlo, hhi⟩

/-- Settles O50: every frame of the loop is a good one, and the tag of a good frame names a view that
takes its length. -/
theorem emittedFramesDecodeWithoutError : Obligations.EmittedFramesDecodeWithoutError := by
  intro newBytes s
  refine ⟨_, _, exec_feed newBytes s, feedBytes_result newBytes s, fun f hf => ?_⟩
  obtain ⟨hkind, hview⟩ | ⟨hkind, hview⟩ :=
    (frameOk_of_mem_parse _ f hf).exec_viewFor (feedBytes newBytes s)
  · exact ⟨_, hview, .inl ⟨hkind, _, rfl⟩⟩
  · exact ⟨_, hview, .inr ⟨hkind, _, rfl⟩⟩

/-- Settles O49: both views test the length first, and the error is all that the next state gains. -/
theorem viewsReportWrongLength : Obligations.ViewsReportWrongLength := fun _ s =>
  ⟨fun h => exec_tlmDecode_of_length_ne h s, fun h => exec_rspDecode_of_length_ne h s⟩

end Sys2Proof.Proofs

namespace Sys2Proof.Machine

/-! ### Framing events (R111) -/

/-- Only a short read is met by `Stop` (R111, R113). -/
theorem Event.action_eq_stop_iff (e : Event) : e.action = some .stop ↔ e = .feShort := by
  cases e <;> simp [Event.action]

/-- The event an iteration case meets is of class (a), and its row of R111 names the action of the
case. -/
theorem eventOf_iterationCase {i : Instr} {e : Event} {act : Action} (he : eventOf i = some e)
    (ha : caseAction i = some act) : e.errorClass = .framing ∧ e.action = some act := by
  cases i with
  | pEmpty | tEmit | rEmit => cases he
  | tWait1 | tWait | rWait | tFalse | tBad | rBad | uDrop => cases he; cases ha; exact ⟨rfl, rfl⟩
  | crc8 | encode | encWr | encRd | feed | reset | tlmDecode | rspDecode | opReserved6
  | opReserved7 | cmdWr | cmdRd | rsp | tlm | leadTlm | leadRsp | leadUnk => cases ha

end Sys2Proof.Machine

namespace Sys2Proof.Proofs

open Sys2Proof.Machine

/-! ### The obligation of `60_exceptions.md` -/

/-- Settles O38: the decoder names a selected case, whose action is both `Decide`'s and its event's. -/
theorem framingErrorsMeetTheirAction : Obligations.FramingErrorsMeetTheirAction := by
  intro B e he
  have hcase : caseAction (decodeHead B) = some (decideAction B) :=
    caseAction_of_selects (selects_decodeHead B)
  obtain ⟨hclass, haction⟩ := eventOf_iterationCase he hcase
  refine ⟨hclass, haction, ?_⟩
  rw [← e.action_eq_stop_iff, haction, Option.some_inj]

end Sys2Proof.Proofs

namespace Sys2Proof.Machine

/-! Proofs about `70_reset_and_hazards.md`: what `RESET` leaves, and what `FEED` answers on bytes that wait
and on bytes that the loop takes frame by frame.

### `RESET` (R130) -/

theorem exec_reset (s : State) : exec .reset s = .next { s with rxbuf := [], result := none } := rfl

/-! ### A stream that waits, and a stream of whole frames (R138, R140) -/

/-- Where the buffer with the new bytes is quiescent, `FEED` appends them and returns no frame (R93). -/
theorem exec_feed_of_quiescent {bs : List Byte} {s : State} (h : Quiescent (s.rxbuf ++ bs)) :
    exec (.feed bs) s =
      .next { s with rxbuf := s.rxbuf ++ bs, result := some (.frames []) } := by
  rw [exec_feed]
  simp only [feedBytes, State.append, parse_of_stop h]

/-- The loop passes from bytes that it takes whole to the bytes behind them. -/
theorem parse_append_of_parse_whole {A : List Byte} {fs : List TaggedFrame} (h : parse A = (fs, []))
    (B : List Byte) : parse (A ++ B) = (fs ++ (parse B).1, (parse B).2) := by
  rw [parse_append, h, List.nil_append]

/-- The all-zero frame is a response: its lead byte is register 0, and the checksum of zeros is zero. -/
theorem parse_zero_frame :
    parse (List.replicate 4 0x00#8) = ([{ kind := .RSP, bytes := List.replicate 4 0x00#8 }], []) :=
  parse_frame4 (x := 0) (crc8_replicate_zero 3).symm

theorem parse_replicate_zero (n : Nat) :
    parse (List.replicate (4 * n) 0x00#8) =
      (List.replicate n { kind := .RSP, bytes := List.replicate 4 0x00#8 }, []) := by
  induction n with
  | zero => exact parse_of_stop decideAction_nil
  | succ n ih =>
    rw [Nat.mul_succ, Nat.add_comm, List.replicate_add, parse_append_of_parse_whole parse_zero_frame, ih]
    rfl

end Sys2Proof.Machine

namespace Sys2Proof.Proofs

open Sys2Proof.Machine

/-! ### The obligations of `70_reset_and_hazards.md` -/

/-- Settles O41: either candidate is a quiescent shape, on which the loop stops at once. -/
theorem incompleteCandidateHoldsTheLine : Obligations.IncompleteCandidateHoldsTheLine := by
  refine fun newBytes s => ⟨fun rest hB hlen => ?_, fun b rest hB hclear hlen => ?_⟩
  · have hshape : QuiescentShape (s.rxbuf ++ newBytes) := hB ▸ .telemetry rest (by omega)
    exact exec_feed_of_quiescent hshape.quiescent
  · have hshape : QuiescentShape (s.rxbuf ++ newBytes) := hB ▸ .response b rest hclear (by omega)
    exact exec_feed_of_quiescent hshape.quiescent

/-- Settles O42: the loop takes the zeros whole, by induction on the number of frames. -/
theorem zeroRunsYieldZeroFrames : Obligations.ZeroRunsYieldZeroFrames := fun n _ hs =>
  exec_feed_of_parse_whole hs (parse_replicate_zero n)

/-- Settles O40: what `RESET` answers does not depend on the buffer or the result it finds. -/
theorem resetEmptiesTheBuffer : Obligations.ResetEmptiesTheBuffer := by
  refine fun s => ⟨fun _ => rfl, exec_reset s, fun t ht => ?_⟩
  obtain rfl : { s with rxbuf := [], result := none } = t := by simpa [exec_reset] using ht
  exact exec_reset _

end Sys2Proof.Proofs
